-- ==== Sys2Proof/Word.lean ====
section
/-! DEFINITION. The words of the block: what spec/ treats as bits. -/

namespace Sys2Proof

/-- A command word: `op` in bits [34:32], `data` in bits [31:0] (30_encoding.md R83). -/
abbrev CmdWord := BitVec 35

/-- A response word: `status` in bits [10:8], `data` in bits [7:0] (30_encoding.md R88). -/
abbrev RspWord := BitVec 11

/-- An 8-bit datum: a seed byte, a response datum, `ACC` (10_state.md R27, 30_encoding.md R88). -/
abbrev Byte := BitVec 8

/-- The rule table: bit `k` is the next state for neighbourhood integer `k` (10_state.md R22). -/
abbrev RuleTable := BitVec 32

/-- The neighbourhood integer, five wires and so always below 32 (41_ring_update.md R131, R136). -/
abbrev Nbh := BitVec 5

end Sys2Proof
end

