-- ==== Sys2Proof/Syntax.lean ====
section
/-! DEFINITION. The commands, what the host may do, and the textual lines of the spec (30_encoding.md R80, R84, R92,
R93). -/

namespace Sys2Proof

/-- One constructor per row of spec/opcode_table.json (30_encoding.md R84, R87). The operand widths are the types',
so every value is well formed; unused operand bits are no part of a command (R86; log 11). -/
inductive Instr where
  /-- `SET_RULE r`, op 1: load the rule table (R111). -/
  | setRule (rule : RuleTable)
  /-- `SEED_BYTE b`, op 2: the next byte of the seed buffer (R112). -/
  | seedByte (byte : Byte)
  /-- `START`, op 3: end construction and check it (R113). -/
  | start
  /-- `NEXT_BIT`, op 4: one generation, one tap bit (R151). -/
  | nextBit
  /-- `NEXT_BYTE`, op 5: eight generations, eight tap bits (R152). -/
  | nextByte
  /-- Reserved opcode 0 (R87). -/
  | reserved0
  /-- Reserved opcode 6 (R87). -/
  | reserved6
  /-- Reserved opcode 7 (R87). -/
  | reserved7
deriving DecidableEq, Repr

/-- What the host does to the block at the transaction level (43_stream_production.md R170, R172). -/
inductive HostEvent where
  /-- A command word is presented and accepted (30_encoding.md R82). -/
  | command (w : CmdWord)
  /-- `rst` is asserted between two commands (70_reset_and_hazards.md R230). -/
  | reset
  /-- A command word is accepted and `rst` is asserted before its response is delivered
  (70_reset_and_hazards.md R232). -/
  | cutOff (w : CmdWord)
deriving DecidableEq, Repr

/-- One line of the spec's text form, operands as written: numbers, not yet checked for range
(30_encoding.md R92, R93). -/
inductive Line where
  | setRule (rule : Nat)
  | seedByte (byte : Nat)
  | start
  | nextBit
  | nextByte
  /-- The signal, no command word (R92). -/
  | reset
  /-- `INIT <rule>, <s0> ...`, the document's constructor (43_stream_production.md R174). -/
  | init (rule : Nat) (seed : List Nat)
  /-- `SEED <s0> ...` (43_stream_production.md R175). -/
  | seed (bytes : List Nat)
  /-- `GEN <m>` (43_stream_production.md R176). -/
  | gen (m : Nat)
deriving DecidableEq, Repr

end Sys2Proof
end

