-- ==== Sys2Proof/Config.lean ====
section
/-! DEFINITION. What is fixed when the block is elaborated: the ring length `N` and what derives from it
(00_scope.md R7, R8). -/

namespace Sys2Proof

/-- A well-formed configuration: the ring length is `N = 2^n` with `n >= 3`, so a power of two of at least 8
(00_scope.md R8: "A model states it as a precondition on its configuration record"). An ill-formed length has no
block, hence no value of this type; see `Config.elaborate`. -/
structure Config where
  /-- `n = log2 N`, the width of a cell index. -/
  n : Nat
  /-- `N >= 8`. -/
  three_le : 3 ≤ n
deriving DecidableEq, Repr

/-- `N`, the ring length in cells (00_scope.md R7). -/
def Config.N (c : Config) : Nat := 2 ^ c.n

/-- `MASK = N - 1`, the index mask (00_scope.md R7). -/
def Config.MASK (c : Config) : Nat := c.N - 1

/-- `TAP = N / 2`, the observation index (00_scope.md R7, 42_extraction.md R158). -/
def Config.TAP (c : Config) : Nat := c.N / 2

/-- `SEED_BYTES = N / 8`, the number of seed bytes (00_scope.md R7). -/
def Config.seedBytes (c : Config) : Nat := c.N / 8

/-- The default configuration, `N` = 1024 (00_scope.md R7). -/
def Config.default : Config := ⟨10, by decide⟩

/-- `NBH`, the neighbourhood size (00_scope.md R7). -/
def Config.NBH : Nat := 5

/-- `RULE_W`, the width of the rule table, 2^5 (00_scope.md R7). -/
def Config.RULE_W : Nat := 32

/-- `BITS_PER_BYTE`, the steps of one `NEXT_BYTE` (00_scope.md R7). -/
def Config.BITS_PER_BYTE : Nat := 8

end Sys2Proof
end

