-- ==== Sys2Proof/WellFormed.lean ====
section
/-! DEFINITION. The checks made before the block runs: the ring length at elaboration (00_scope.md R8,
60_exceptions.md R194) and the operand ranges of a textual line (30_encoding.md R92). A command of `Instr` needs none:
its operand widths are its types'. -/

namespace Sys2Proof

/-- `N` is a power of two and `N >= 8` (00_scope.md R8). -/
def ringLengthOk (N : Nat) : Bool := 8 ≤ N && 2 ^ Nat.log2 N == N

/-- Elaborating the block with ring length `N`: a configuration, or none where the check fails
(`InvalidConfiguration`, "construction-time check": 60_exceptions.md R194). -/
def Config.elaborate (N : Nat) : Option Config :=
  if ringLengthOk N then
    if h : 3 ≤ Nat.log2 N then some ⟨Nat.log2 N, h⟩ else none
  else none

/-- The operands of a line are in range: a rule number is 0 to 2^32 - 1, a byte 0 to 255 (30_encoding.md R92). -/
def Line.wellFormed : Line → Bool
  | .setRule r => r < 2 ^ 32
  | .seedByte b => b < 256
  | .start => true
  | .nextBit => true
  | .nextByte => true
  | .reset => true
  | .init r bs => r < 2 ^ 32 && bs.all (· < 256)
  | .seed bs => bs.all (· < 256)
  | .gen _ => true

end Sys2Proof
end

