-- ==== Sys2Proof/Decode.lean ====
section
/-! DEFINITION. The decoder and the encoder of command words (30_encoding.md R83 to R87), and the text form with its
pseudo-commands (30_encoding.md R92, R93; 43_stream_production.md R174 to R176). -/

namespace Sys2Proof

/-- Bits [34:32] of the command word (R83). -/
def opField (w : CmdWord) : BitVec 3 := w.extractLsb' 32 3

/-- Bits [31:0] of the command word (R83). -/
def dataField (w : CmdWord) : BitVec 32 := w.extractLsb' 0 32

/-- Bits [7:0] of the command word, the seed byte (R85). -/
def byteField (w : CmdWord) : Byte := w.extractLsb' 0 8

/-- The command word with the given fields, `op` at the more significant end (R83). -/
def cmdWord (op : BitVec 3) (data : BitVec 32) : CmdWord := op ++ data

/-- Decode a command word. Total: every one of the 2^35 words is a command or of the reserved class (R84, R87). -/
def decode (w : CmdWord) : Instr :=
  match (opField w).toNat with
  | 1 => .setRule (dataField w)
  | 2 => .seedByte (byteField w)
  | 3 => .start
  | 4 => .nextBit
  | 5 => .nextByte
  | 6 => .reserved6
  | 7 => .reserved7
  | _ => .reserved0

/-- The opcode of a command (R84, R87). -/
def opcode : Instr → BitVec 3
  | .setRule _ => 1
  | .seedByte _ => 2
  | .start => 3
  | .nextBit => 4
  | .nextByte => 5
  | .reserved0 => 0
  | .reserved6 => 6
  | .reserved7 => 7

/-- The operand bits of a command. DESIGN CHOICE: unused operand bits are written 0 (R86 allows any value; log 11;
safe). -/
def operandBits : Instr → BitVec 32
  | .setRule r => r
  | .seedByte b => b.setWidth 32
  | .start => 0
  | .nextBit => 0
  | .nextByte => 0
  | .reserved0 => 0
  | .reserved6 => 0
  | .reserved7 => 0

/-- The command word of a command (R83, R84). -/
def encode (i : Instr) : CmdWord := cmdWord (opcode i) (operandBits i)

/-- The `match` column of the opcode map (R84; spec/opcode_table.json). -/
def rowMatch : Instr → CmdWord
  | .setRule _ => 0x100000000#35
  | .seedByte _ => 0x200000000#35
  | .start => 0x300000000#35
  | .nextBit => 0x400000000#35
  | .nextByte => 0x500000000#35
  | .reserved0 => 0x000000000#35
  | .reserved6 => 0x600000000#35
  | .reserved7 => 0x700000000#35

/-- The one `mask` of the opcode map (R84). -/
def rowMask : CmdWord := 0x700000000#35

/-- Why bits given as a number are no command word. -/
inductive DecodeError where
  /-- A bit above bit 34 is set: the command port has 35 wires (R81, R83). -/
  | widerThanCommandWord
deriving DecidableEq, Repr

/-- Decode a number read as bits, bit 0 the least significant. A number wider than the command word is rejected by
name (DESIGN CHOICE, log 11; safe). -/
def decodeBits (w : Nat) : Except DecodeError Instr :=
  if w < 2 ^ 35 then .ok (decode (BitVec.ofNat 35 w)) else .error .widerThanCommandWord

/-- The bits a table row gives, those from `nbits` up being 0. -/
def tableBits (nbits w : Nat) : Nat := w % 2 ^ nbits

/-- What the decoder reads from an instruction given as spec/opcode_table.json numbers its bits. -/
def decodeTableWord (nbits w : Nat) : Option Instr := (decodeBits (tableBits nbits w)).toOption

/-! ### The text form -/

/-- `SET_RULE r` as a host event. -/
def setRuleEvent (r : Nat) : HostEvent := .command (encode (.setRule (BitVec.ofNat 32 r)))

/-- `SEED_BYTE b` as a host event. -/
def seedByteEvent (b : Nat) : HostEvent := .command (encode (.seedByte (BitVec.ofNat 8 b)))

/-- What a line stands for: one command, the reset signal, or the expansion of a pseudo-command (30_encoding.md R92,
R93; 43_stream_production.md R174 to R176). Operands are taken to be in range (`Line.wellFormed`). -/
def Line.expand : Line → List HostEvent
  | .setRule r => [setRuleEvent r]
  | .seedByte b => [seedByteEvent b]
  | .start => [.command (encode .start)]
  | .nextBit => [.command (encode .nextBit)]
  | .nextByte => [.command (encode .nextByte)]
  | .reset => [.reset]
  | .init r bs => .reset :: setRuleEvent r :: (bs.map seedByteEvent ++ [.command (encode .start)])
  | .seed bs => bs.map seedByteEvent
  | .gen m => List.replicate m (.command (encode .nextByte))

/-- Assemble a line: the events of a well-formed one, none otherwise (30_encoding.md R92 states the ranges). -/
def Line.assemble (l : Line) : Option (List HostEvent) := if l.wellFormed then some l.expand else none

/-- The characters of a line before its comment, `;` starting a comment (30_encoding.md R92). -/
def stripComment : List Char → List Char
  | [] => []
  | c :: cs => if c = ';' then [] else c :: stripComment cs

/-- Split at spaces, tabs, carriage returns and commas, dropping empty words. PRESUMED: the spec shows these separators
in its examples and states none (log 14; safe). -/
def words : List Char → List Char → List (List Char)
  | acc, [] => if acc.isEmpty then [] else [acc.reverse]
  | acc, c :: cs =>
    if c = ' ' ∨ c = ',' ∨ c = '\t' ∨ c = '\r' then
      if acc.isEmpty then words [] cs else acc.reverse :: words [] cs
    else words (c :: acc) cs

/-- The value of a digit in the given base, 10 or 16. -/
def digit? (base : Nat) (c : Char) : Option Nat :=
  let v :=
    if '0' ≤ c ∧ c ≤ '9' then some (c.toNat - '0'.toNat)
    else if 'a' ≤ c ∧ c ≤ 'f' then some (c.toNat - 'a'.toNat + 10)
    else if 'A' ≤ c ∧ c ≤ 'F' then some (c.toNat - 'A'.toNat + 10)
    else none
  v.bind fun d => if d < base then some d else none

/-- The value of a digit string, most significant digit first. -/
def digits? (base : Nat) : Nat → List Char → Option Nat
  | acc, [] => some acc
  | acc, c :: cs => (digit? base c).bind fun d => digits? base (acc * base + d) cs

/-- A number, decimal or 0x-hex (30_encoding.md R92). -/
def number? : List Char → Option Nat
  | '0' :: 'x' :: c :: cs => digits? 16 0 (c :: cs)
  | c :: cs => digits? 10 0 (c :: cs)
  | [] => none

/-- Every word a number. -/
def numbers? : List (List Char) → Option (List Nat)
  | [] => some []
  | w :: ws => (number? w).bind fun n => (numbers? ws).map (n :: ·)

/-- The words of a line up to the expected response, which `->` begins (30_encoding.md R92). -/
def beforeArrow (ws : List (List Char)) : List (List Char) := ws.takeWhile (· ≠ ['-', '>'])

/-- Read one line of text: `none` where it is not of the text form, `some none` where it holds no command
(30_encoding.md R92, R93). -/
def parseLine (cs : List Char) : Option (Option Line) :=
  match beforeArrow (words [] (stripComment cs)) with
  | [] => some none
  | kw :: args =>
    (numbers? args).bind fun ns =>
      match kw, ns with
      | ['S', 'E', 'T', '_', 'R', 'U', 'L', 'E'], [r] => some (some (.setRule r))
      | ['S', 'E', 'E', 'D', '_', 'B', 'Y', 'T', 'E'], [b] => some (some (.seedByte b))
      | ['S', 'T', 'A', 'R', 'T'], [] => some (some .start)
      | ['N', 'E', 'X', 'T', '_', 'B', 'I', 'T'], [] => some (some .nextBit)
      | ['N', 'E', 'X', 'T', '_', 'B', 'Y', 'T', 'E'], [] => some (some .nextByte)
      | ['R', 'E', 'S', 'E', 'T'], [] => some (some .reset)
      | ['I', 'N', 'I', 'T'], r :: bs => some (some (.init r bs))
      | ['S', 'E', 'E', 'D'], bs => some (some (.seed bs))
      | ['G', 'E', 'N'], [m] => some (some (.gen m))
      | _, _ => none

/-- Read one line of text. -/
def Line.parse (text : String) : Option (Option Line) := parseLine text.toList

end Sys2Proof
end

