-- ==== Sys2Proof/Machine/State.lean ====
section
/-! DEFINITION. The architectural state of the engine (10_state.md R20), the reasons a step may stop, and the state
after reset (10_state.md R39). -/

namespace Sys2Proof.Machine

/-- `PHASE` (10_state.md R24). The encoding 3 is never held and has no constructor (U12; log 12; safe). -/
inductive Phase where
  /-- The generator instance is being constructed; encoding 0. -/
  | cfg
  /-- Construction succeeded; encoding 1. -/
  | run
  /-- An error was raised; sticky; encoding 2. -/
  | failed
deriving DecidableEq, Repr

/-- The errors the engine can raise (60_exceptions.md R191 to R193). -/
inductive Error where
  /-- Code 2, raised by `START` (R192). -/
  | seedTooShort
  /-- Code 6 (R193). -/
  | protocolViolation
deriving DecidableEq, Repr

/-- A response status, and the value of `ERR`: 0, 2 or 6. The codes never produced have no constructor
(30_encoding.md R89, 10_state.md R32, U12; log 12; safe). -/
inductive Status where
  /-- Code 0. -/
  | ok
  | error (e : Error)
deriving DecidableEq, Repr

/-- A response, the engine's one answer to a command (30_encoding.md R80, R88). -/
structure Response where
  status : Status
  data : Byte
deriving DecidableEq, Repr

/-- The ring as memory: pairs of a cell index and the bit the cell holds, indices strictly rising; a cell that is not
listed HOLDS NO VALUE, which is what the spec gives for reset (10_state.md R39, 20_memory.md R50, R61; log 2, log 4;
safe). -/
abbrev Ring := List (Nat × Bool)

/-- The canonical form of a ring of `N` cells: indices strictly rising and all of them cells of the ring
(20_memory.md R50). Equal rings are then equal lists. -/
abbrev Ring.WellFormed (N : Nat) (m : Ring) : Prop :=
  m.Pairwise (fun x y => x.1 < y.1) ∧ ∀ x ∈ m, x.1 < N

/-- The state (10_state.md R20), with the host's side of the command and response ports. -/
structure State where
  /-- MODEL'S OWN: the configuration, fixed at elaboration; no step changes it (00_scope.md R7, R8; log 1; safe). -/
  cfg : Config
  /-- `RING[0..N-1]` (R21). -/
  ring : Ring
  /-- `RULE`; `none` where it holds no value, as the spec has it represented (R22, R39; log 3; safe). -/
  rule : Option RuleTable
  /-- `RULE_VALID` (R23). -/
  ruleValid : Bool
  /-- `SEEDCNT`, 0 to `N/8` (R26; log 10; safe). -/
  seedCnt : Nat
  /-- `PHASE` (R24). -/
  phase : Phase
  /-- `ERR`; `.ok` is 0, no error (R25). -/
  err : Status
  /-- The ghost `GEN`, steps since `START`; no hardware (R35; log 8). -/
  gen : Nat
  /-- What the host will do, oldest first: the command port and `rst` (30_encoding.md R81; log 5; safe). -/
  inputs : List HostEvent
  /-- The responses given so far, oldest first: the response port (30_encoding.md R81; log 6; safe). -/
  responses : List Response
deriving DecidableEq, Repr

/-- The machine stops with a fault. -/
inductive Fault where
  /-- Raised by `ringWrite` and `ringRead` at an index outside `0 .. N-1`, which no cell has (20_memory.md R50, R54,
  R55). Reached only by `SEED_BYTE` in states with `SEEDCNT > N/8`, which no run reaches (10_state.md R36 item 3). Safe. -/
  | noSuchCell (index : Nat)
deriving DecidableEq, Repr

/-- No meaning for what was asked. -/
inductive Refusal where
  /-- Raised by `exec` for an instruction that has no meaning yet; no arm does. Safe. -/
  | notModelled (mnemonic : String)
  /-- Raised by `ringRead` and the step for a cell that holds no value: "a read of an absent cell is a model bug to be
  reported, not a zero" (20_memory.md R61, U10). No run reaches it (10_state.md R36). Safe. -/
  | readOfAbsentCell
  /-- Raised by the step where `RULE` holds no value (10_state.md R23, R39, U10). No run reaches it. Safe. -/
  | readOfAbsentRule
deriving DecidableEq, Repr

/-- The state after reset of the block elaborated with configuration `c`, nothing presented and nothing answered yet
(10_state.md R39). `GEN` is undefined until `START`: DESIGN CHOICE 0 (log 8; unsafe). -/
def State.resetOf (c : Config) : State where
  cfg := c
  ring := []
  rule := none
  ruleValid := false
  seedCnt := 0
  phase := .cfg
  err := .ok
  gen := 0
  inputs := []
  responses := []

/-- The state after reset of the block with the default ring length, `N` = 1024 (10_state.md R39, 00_scope.md R7;
log 1). -/
def State.reset : State := State.resetOf Config.default

end Sys2Proof.Machine
end

