-- ==== Sys2Proof/Machine/Flags.lean ====
section
/-! DEFINITION. The status bits of the block: the encodings of `PHASE` and of the status and error codes, the response
word, and the comparisons `SEED_BYTE` and `START` read (10_state.md R31, R32; 30_encoding.md R88 to R90;
60_exceptions.md R191). The block has no arithmetic flags. -/

namespace Sys2Proof.Machine

/-- The encoding of `PHASE` (10_state.md R20). -/
def phaseCode : Phase → BitVec 2
  | .cfg => 0
  | .run => 1
  | .failed => 2

/-- The code of an error the engine raises (60_exceptions.md R191). -/
def errorCode : Error → BitVec 3
  | .seedTooShort => 2
  | .protocolViolation => 6

/-- The 3-bit status of a response, and the 3 bits of `ERR` (30_encoding.md R88, R89; 10_state.md R25). -/
def statusCode : Status → BitVec 3
  | .ok => 0
  | .error e => errorCode e

/-- The response word, status at the more significant end (30_encoding.md R88). -/
def responseWord (r : Response) : RspWord := statusCode r.status ++ r.data

/-- The names of the error taxonomy with the added `ProtocolViolation` (60_exceptions.md R191). -/
inductive TaxonomyName where
  | seedSourceUnavailable
  | seedTooShort
  | invalidConfiguration
  | internalInvariantViolation
  | outputSinkError
  | protocolViolation
deriving DecidableEq, Repr

/-- The code of every name of the taxonomy, raised or not (30_encoding.md R89, 60_exceptions.md R191). -/
def taxonomyCode : TaxonomyName → BitVec 3
  | .seedSourceUnavailable => 1
  | .seedTooShort => 2
  | .invalidConfiguration => 3
  | .internalInvariantViolation => 4
  | .outputSinkError => 5
  | .protocolViolation => 6

/-- The engine's own error of that name, where it raises one at run time (60_exceptions.md R191, R194 to R197). -/
def raisedByEngine : TaxonomyName → Option Error
  | .seedSourceUnavailable => none
  | .seedTooShort => some .seedTooShort
  | .invalidConfiguration => none
  | .internalInvariantViolation => none
  | .outputSinkError => none
  | .protocolViolation => some .protocolViolation

/-- `SEEDCNT = N/8`, read by `SEED_BYTE` (10_state.md R31, 40_construction.md R112). -/
def seedFull (s : State) : Bool := s.seedCnt == s.cfg.seedBytes

/-- `SEEDCNT < N/8`, read by `START` (40_construction.md R113). -/
def seedShort (s : State) : Bool := s.seedCnt < s.cfg.seedBytes

end Sys2Proof.Machine
end

