-- ==== Sys2Proof/Machine/Operands.lean ====
section
/-! DEFINITION. The addressing computations: the cell a seed bit goes to, the circular index, and the neighbourhood of a
cell (20_memory.md R52, R56; 41_ring_update.md R131). No command names a register or a cell; the two operands are pulled
out by the decoder (30_encoding.md R85). -/

namespace Sys2Proof.Machine

/-- The cell that bit `b` of seed byte number `i` goes to, `8*i + b` (20_memory.md R52). -/
def seedCell (i b : Nat) : Nat := 8 * i + b

/-- The five offsets of the neighbourhood; left is the lower index (20_memory.md R56, 00_scope.md R12). -/
inductive Offset where
  /-- -2 -/
  | left2
  /-- -1 -/
  | left1
  /-- 0 -/
  | self
  /-- +1 -/
  | right1
  /-- +2 -/
  | right2
deriving DecidableEq, Repr

/-- The offset as a number. -/
def Offset.toInt : Offset → Int
  | .left2 => -2
  | .left1 => -1
  | .self => 0
  | .right1 => 1
  | .right2 => 2

/-- `x + d` on naturals; in every use `x` is at least `N >= 8`, so nothing is cut off (20_memory.md R56). -/
def Offset.addTo (d : Offset) (x : Nat) : Nat :=
  match d with
  | .left2 => x - 2
  | .left1 => x - 1
  | .self => x
  | .right1 => x + 1
  | .right2 => x + 2

/-- `wrap(i, d) = (i + N + d) & MASK` (20_memory.md R56). -/
def wrap (c : Config) (i : Nat) (d : Offset) : Nat := d.addTo (i + c.N) &&& c.MASK

/-- `nbh(R, i)`, bit 4 the cell `i-2` and bit 0 the cell `i+2` (41_ring_update.md R131). `R` is a ring value, a
function from cell indices to bits. -/
def nbh (c : Config) (R : Nat → Bool) (i : Nat) : Nbh :=
  BitVec.ofBool (R (wrap c i .left2)) ++ BitVec.ofBool (R (wrap c i .left1)) ++ BitVec.ofBool (R (wrap c i .self))
    ++ BitVec.ofBool (R (wrap c i .right1)) ++ BitVec.ofBool (R (wrap c i .right2))

/-- Bit `k` of the rule table (41_ring_update.md R132). -/
def ruleBit (r : RuleTable) (k : Nbh) : Bool := r.getLsbD k.toNat

/-- `Step(R, rule)`: the next generation, `R'[i] = rule[nbh(R, i)]` (41_ring_update.md R132, R133). It reads `R`, the
old ring, and nothing else (R134, R135). -/
def generationStep (c : Config) (r : RuleTable) (R : Nat → Bool) : Nat → Bool := fun i => ruleBit r (nbh c R i)

end Sys2Proof.Machine
end

