-- ==== Sys2Proof/Machine/Ops.lean ====
section
/-! DEFINITION. The shared operations: access to the ring (20_memory.md R54, R55), the response (30_encoding.md R88),
fault entry (60_exceptions.md R202), the common checks (30_encoding.md R95), reset (70_reset_and_hazards.md R230), and
taking the host's next act. -/

namespace Sys2Proof.Machine

/-- Go on from an outcome where it has a result; a fault or a refusal ends the command. -/
def andThen {α β : Type} (o : Host.Outcome α Fault Refusal) (f : α → Host.Outcome β Fault Refusal) :
    Host.Outcome β Fault Refusal :=
  match o with
  | .next a => f a
  | .fault r => .fault r
  | .refused r => .refused r

/-! ### The ring -/

/-- What a cell holds; `none` where it holds no value (20_memory.md R54, R61). -/
def Ring.read : Ring → Nat → Option Bool
  | [], _ => none
  | (a, v) :: m, i => if a = i then some v else Ring.read m i

/-- The ring with cell `i` holding `v`, in canonical form (20_memory.md R55). -/
def Ring.write : Ring → Nat → Bool → Ring
  | [], i, v => [(i, v)]
  | (a, w) :: m, i, v =>
    if i < a then (i, v) :: (a, w) :: m else if i = a then (i, v) :: m else (a, w) :: Ring.write m i v

/-- The ring whose cells `0 .. N-1` hold the bits of `R`. -/
def Ring.ofCells (N : Nat) (R : Nat → Bool) : Ring := (List.range N).map fun i => (i, R i)

/-- The bits of a ring as one number, bit `i` of it the value of cell `i`. -/
def Ring.value : Ring → Nat
  | [] => 0
  | (a, v) :: m => bif v then 2 ^ a ||| Ring.value m else Ring.value m

/-- The snapshot `old <- RING` of a step, as one number whose bit `i` is cell `i`; `none` where some cell holds no value
(41_ring_update.md R133, R134). -/
def Ring.snapshot (N : Nat) (m : Ring) : Option Nat :=
  if m.map Prod.fst = List.range N then some (Ring.value m) else none

/-- `RingRead(i)` (20_memory.md R54). -/
def ringRead (s : State) (i : Nat) : Host.Outcome Bool Fault Refusal :=
  if i < s.cfg.N then
    match s.ring.read i with
    | some v => .next v
    | none => .refused .readOfAbsentCell
  else .fault (.noSuchCell i)

/-- `RingWrite(i, v)` (20_memory.md R55). -/
def ringWrite (i : Nat) (v : Bool) (s : State) : Host.Outcome State Fault Refusal :=
  if i < s.cfg.N then .next { s with ring := s.ring.write i v } else .fault (.noSuchCell i)

/-- The cells of seed byte `b`, its bits from `j` on, `left` of them (40_construction.md R112). -/
def writeSeedBits (b : Byte) (s : State) : (left j : Nat) → Host.Outcome State Fault Refusal
  | 0, _ => .next s
  | left + 1, j => andThen (ringWrite (seedCell s.seedCnt j) (b.getLsbD j) s) fun t => writeSeedBits b t left (j + 1)

/-! ### Response and fault entry -/

/-- `respond(status, data)`: the single response of the command (30_encoding.md R88). -/
def respond (status : Status) (data : Byte) (s : State) : State :=
  { s with responses := s.responses ++ [⟨status, data⟩] }

/-- `raise E`, fault entry: `ERR` takes the code, `PHASE` becomes `FAILED`, the response carries the code and datum 0,
and nothing else is written (60_exceptions.md R202). There is no return from it but reset (R205). -/
def raise (e : Error) (s : State) : State := respond (.error e) 0 { s with err := .error e, phase := .failed }

/-- The common checks before a command's own rule, first match wins: in `FAILED` the recorded error is answered and
nothing changes; outside the phase where the command is legal (no phase, for a reserved opcode) it raises
`ProtocolViolation` (30_encoding.md R87, R94, R95; 60_exceptions.md R201, R204). -/
def whenLegal (legal : Option Phase) (s : State) (body : State → Host.Outcome State Fault Refusal) :
    Host.Outcome State Fault Refusal :=
  if s.phase = .failed then .next (respond s.err 0 s)
  else if legal = some s.phase then body s
  else .next (raise .protocolViolation s)

/-! ### The step and the tap -/

/-- `STEP`: `old <- RING`, then every cell `i` takes `RULE[nbh(old, i)]`; `GEN` goes up by 1 (41_ring_update.md R130,
R133). A rule or a cell that holds no value is refused (U10). -/
def ringStep (s : State) : Host.Outcome State Fault Refusal :=
  match s.rule with
  | none => .refused .readOfAbsentRule
  | some r =>
    match s.ring.snapshot s.cfg.N with
    | none => .refused .readOfAbsentCell
    | some old =>
      .next { s with ring := Ring.ofCells s.cfg.N (generationStep s.cfg r old.testBit), gen := s.gen + 1 }

/-- The document's `next_bit()`: one step, then the tap of the new ring (42_extraction.md R151). -/
def stepAndTap (s : State) : Host.Outcome (State × Bool) Fault Refusal :=
  andThen (ringStep s) fun t => andThen (ringRead t t.cfg.TAP) fun v => .next (t, v)

/-- `ACC | (zext_8(t) << j)`: bit `j` of the byte being assembled (42_extraction.md R152, R157). -/
def packBit (acc : Byte) (j : Nat) (t : Bool) : Byte := acc ||| ((BitVec.ofBool t).setWidth 8 <<< j)

/-- The steps of a `NEXT_BYTE` that are left, the next one its `j`-th: each a step and a tap, the tap going to bit `j`
of `ACC` (42_extraction.md R152). `ACC` is an argument: it is no state between commands (10_state.md R27; log 9). -/
def gatherBits (s : State) (acc : Byte) : (left j : Nat) → Host.Outcome (State × Byte) Fault Refusal
  | 0, _ => .next (s, acc)
  | left + 1, j => andThen (stepAndTap s) fun p => gatherBits p.1 (packBit acc j p.2) left (j + 1)

/-! ### Reset and the host's side -/

/-- Reset: every element of the engine takes its reset value (10_state.md R39, 70_reset_and_hazards.md R230). The
configuration stays, and so do the host's side: what it will still do and the responses delivered to it (log 6). -/
def resetEngine (s : State) : State :=
  { State.resetOf s.cfg with inputs := s.inputs, responses := s.responses }

/-- The host's next act, taken from the list, and the state without it; `none` where the host does nothing. -/
def takeEvent (s : State) : Option (HostEvent × State) :=
  match s.inputs with
  | [] => none
  | e :: es => some (e, { s with inputs := es })

/-- The state with a command word as the host's next act. -/
def presentWord (s : State) (w : CmdWord) : State := { s with inputs := .command w :: s.inputs }

end Sys2Proof.Machine
end

