-- ==== Sys2Proof/Machine/Construction.lean ====
section
/-! DEFINITION. The construction commands `SET_RULE`, `SEED_BYTE`, `START` (40_construction.md R110 to R113). -/

namespace Sys2Proof.Machine

/-- `SET_RULE r`: `RULE <- r; RULE_VALID <- 1; respond(OK, 0)` (40_construction.md R111). -/
def execSetRule (r : RuleTable) (s : State) : Host.Outcome State Fault Refusal :=
  whenLegal (some .cfg) s fun s => .next (respond .ok 0 { s with rule := some r, ruleValid := true })

/-- `SEED_BYTE b`: a byte beyond the `N/8`-th raises `ProtocolViolation`; else the eight cells from `8*SEEDCNT` take the
bits of `b`, least significant first, and `SEEDCNT` goes up by 1 (40_construction.md R112). -/
def execSeedByte (b : Byte) (s : State) : Host.Outcome State Fault Refusal :=
  whenLegal (some .cfg) s fun s =>
    if seedFull s then .next (raise .protocolViolation s)
    else andThen (writeSeedBits b s 8 0) fun t => .next (respond .ok 0 { t with seedCnt := t.seedCnt + 1 })

/-- `START`: `ProtocolViolation` without a rule, then `SeedTooShort` with fewer than `N/8` bytes, else `PHASE <- RUN`
and `GEN = 0` (40_construction.md R113). -/
def execStart (s : State) : Host.Outcome State Fault Refusal :=
  whenLegal (some .cfg) s fun s =>
    if s.ruleValid = false then .next (raise .protocolViolation s)
    else if seedShort s then .next (raise .seedTooShort s)
    else .next (respond .ok 0 { s with phase := .run, gen := 0 })

end Sys2Proof.Machine
end

