-- ==== Sys2Proof/Machine/Extraction.lean ====
section
/-! DEFINITION. The extraction commands `NEXT_BIT` and `NEXT_BYTE` (42_extraction.md R150 to R152). -/

namespace Sys2Proof.Machine

/-- `NEXT_BIT`: one step, then the tap of the new ring in bit 0 of the datum (42_extraction.md R151). -/
def execNextBit (s : State) : Host.Outcome State Fault Refusal :=
  whenLegal (some .run) s fun s =>
    andThen (stepAndTap s) fun p => .next (respond .ok ((BitVec.ofBool p.2).setWidth 8) p.1)

/-- `NEXT_BYTE`: eight steps, the tap after the `j`-th in bit `j` of the datum, `j` from 0 (42_extraction.md R152). -/
def execNextByte (s : State) : Host.Outcome State Fault Refusal :=
  whenLegal (some .run) s fun s =>
    andThen (gatherBits s 0 Config.BITS_PER_BYTE 0) fun p => .next (respond .ok p.2 p.1)

end Sys2Proof.Machine
end

