-- ==== Sys2Proof/Machine/Reserved.lean ====
section
/-! DEFINITION. The reserved opcodes 0, 6 and 7: legal in no phase (30_encoding.md R87). -/

namespace Sys2Proof.Machine

/-- Opcode 0 (30_encoding.md R87, R95). -/
def execReserved0 (s : State) : Host.Outcome State Fault Refusal := whenLegal none s .next

/-- Opcode 6 (30_encoding.md R87, R95). -/
def execReserved6 (s : State) : Host.Outcome State Fault Refusal := whenLegal none s .next

/-- Opcode 7 (30_encoding.md R87, R95). -/
def execReserved7 (s : State) : Host.Outcome State Fault Refusal := whenLegal none s .next

end Sys2Proof.Machine
end

