-- ==== Sys2Proof/Machine/Dispatch.lean ====
section
/-! DEFINITION. One arm per command: the meaning each calls. -/

namespace Sys2Proof.Machine

def exec (i : Instr) (s : State) : Host.Outcome State Fault Refusal :=
  match i with
  | .setRule rule => Sys2Proof.Machine.execSetRule rule s
  | .seedByte byte => Sys2Proof.Machine.execSeedByte byte s
  | .start => Sys2Proof.Machine.execStart s
  | .nextBit => Sys2Proof.Machine.execNextBit s
  | .nextByte => Sys2Proof.Machine.execNextByte s
  | .reserved0 => Sys2Proof.Machine.execReserved0 s
  | .reserved6 => Sys2Proof.Machine.execReserved6 s
  | .reserved7 => Sys2Proof.Machine.execReserved7 s

end Sys2Proof.Machine
end

