-- ==== Sys2Proof/Machine/Step.lean ====
section
/-! DEFINITION. One step of the machine: the host's next act, served whole (00_scope.md R11, 20_memory.md R63). -/

namespace Sys2Proof.Machine

/-- One step. A command is decoded and executed; `rst` resets the engine; a command cut off by `rst` gets no response
and leaves what reset leaves (70_reset_and_hazards.md R232); where the host does nothing the state is held
(60_exceptions.md R214; log 5). -/
def step (s : State) : Host.Outcome State Fault Refusal :=
  match takeEvent s with
  | none => .next s
  | some (.command w, t) => exec (decode w) t
  | some (.reset, t) => .next (resetEngine t)
  | some (.cutOff _, t) => .next (resetEngine t)

/-- `s` with the instruction whose bits are `w` as the host's next command: the block fetches nothing, its commands come
from the host (10_state.md R30, 30_encoding.md R80; log 7). DESIGN CHOICE: of bits that make a number of 2^35 or more, which
is no command word, the low 35 are presented, as the command port has no more wires (log 11; safe); `decodeTableWord` rejects
such bits. -/
def State.withFetchWord (s : State) (nbits w : Nat) : State := presentWord s (BitVec.ofNat 35 (tableBits nbits w))

end Sys2Proof.Machine
end

