-- ==== Sys2Proof/Machine/Buffers.lean ====
section
/-! DEFINITION. The two ways to buffer a step: two buffers with a selector, or one buffer with a temporary
(10_state.md R38, 41_ring_update.md R140). Neither is architectural: `RING` is `State.ring`, and the inactive buffer and
the selector are not observable (D29). -/

namespace Sys2Proof.Machine

/-- `BUF[0]`, `BUF[1]` and the selector `SEL` (10_state.md R38). -/
structure Buffers where
  buf0 : Ring
  buf1 : Ring
  sel : Bool
deriving DecidableEq, Repr

/-- `BUF[SEL]`, the architectural ring (10_state.md R38). -/
def activeBuffer (b : Buffers) : Ring := if b.sel then b.buf1 else b.buf0

/-- One step with two buffers: every cell `i` of `BUF[1-SEL]` takes `RULE[nbh(BUF[SEL], i)]`, then `SEL` toggles
(41_ring_update.md R140). -/
def doubleBufferedStep (c : Config) (r : RuleTable) (b : Buffers) : Option Buffers :=
  (Ring.snapshot c.N (activeBuffer b)).map fun old =>
    let new := Ring.ofCells c.N (generationStep c r old.testBit)
    if b.sel then ⟨new, b.buf1, false⟩ else ⟨b.buf0, new, true⟩

/-- Cells written one after another, each from the snapshot `tmp`, in the given order (41_ring_update.md R133, R140). -/
def writeCells (c : Config) (r : RuleTable) (tmp : Nat → Bool) : List Nat → Ring → Ring
  | [], m => m
  | i :: is, m => writeCells c r tmp is (m.write i (generationStep c r tmp i))

/-- One step with one buffer and a temporary: `TMP <- RING`, then every cell in the given order
(41_ring_update.md R140). -/
def temporaryStep (c : Config) (r : RuleTable) (order : List Nat) (m : Ring) : Option Ring :=
  (Ring.snapshot c.N m).map fun tmp => writeCells c r tmp.testBit order m

/-- What no implementation may do: each cell computed from the buffer that is being overwritten
(41_ring_update.md R134, 70_reset_and_hazards.md R236). It is used by no command; a test shows it is not the step. -/
def inPlaceStep (c : Config) (r : RuleTable) : List Nat → Ring → Ring
  | [], m => m
  | i :: is, m => inPlaceStep c r is (m.write i (generationStep c r (fun j => (m.read j).getD false) i))

end Sys2Proof.Machine
end

