-- ==== Sys2Proof/Machine/Micro.lean ====
section
/-! DEFINITION. The micro-step form: one generation per machine step, with `ACC` and `BITCNT` as state and a busy flag
(42_extraction.md R153; 10_state.md R27, R28; log 9). `exec` is the atomic form R152; this is the refinement the spec
gives beside it. -/

namespace Sys2Proof.Machine

/-- The engine with the state that lives inside one `NEXT_BYTE` (10_state.md R20, R27, R28; 42_extraction.md R153). -/
structure MicroState where
  engine : State
  /-- `ACC`, the byte being assembled (R27). -/
  acc : Byte
  /-- `BITCNT`, the steps done by the `NEXT_BYTE` in progress, 0 to 8 (R28). -/
  bitCnt : Nat
  /-- A `NEXT_BYTE` is in progress (R153). -/
  busy : Bool
deriving DecidableEq, Repr

/-- A command is presented: none is accepted while busy; an accepted `NEXT_BYTE` that is legal begins with
`ACC <- 0; BITCNT <- 0; busy <- 1`; any other command is executed whole (42_extraction.md R153). -/
def microAccept (i : Instr) (m : MicroState) : Host.Outcome MicroState Fault Refusal :=
  if m.busy then .next m
  else if i = .nextByte ∧ m.engine.phase = .run then .next { m with acc := 0, bitCnt := 0, busy := true }
  else andThen (exec i m.engine) fun t => .next { m with engine := t }

/-- One micro-step: while busy, a step and its tap into bit `BITCNT` of `ACC`, `BITCNT` up by 1, and with the eighth the
response; idle otherwise (42_extraction.md R153). -/
def microStep (m : MicroState) : Host.Outcome MicroState Fault Refusal :=
  if m.busy then
    andThen (stepAndTap m.engine) fun p =>
      let acc := packBit m.acc m.bitCnt p.2
      if m.bitCnt + 1 = Config.BITS_PER_BYTE then
        .next ⟨respond .ok acc p.1, acc, m.bitCnt + 1, false⟩
      else .next ⟨p.1, acc, m.bitCnt + 1, true⟩
  else .next m

/-- `k` micro-steps. -/
def microRun : Nat → MicroState → Host.Outcome MicroState Fault Refusal
  | 0, m => .next m
  | k + 1, m => andThen (microStep m) (microRun k)

end Sys2Proof.Machine
end

