-- ==== Sys2Proof/Machine/Port.lean ====
section
/-! DEFINITION. The signal-level interface: ports, handshake, reset during a command, latency (30_encoding.md R81, R82;
70_reset_and_hazards.md R230 to R232, R243, R244). It wraps the transaction-level `exec`; no rule of the semantics
depends on it (00_scope.md R11). -/

namespace Sys2Proof.Machine

/-- The command in flight (30_encoding.md R82). -/
inductive Job where
  /-- None: `cmd_ready` is 1 once `rst` is 0. -/
  | idle
  /-- A command was accepted and its response is not delivered; the response is presented when `left` is 0. -/
  | outstanding (left : Nat)
deriving DecidableEq, Repr

/-- The block with its ports. The whole effect of a command is taken at its acceptance; nothing shows it before the
response (DESIGN CHOICE, log 13; safe). -/
structure PortState where
  engine : State
  job : Job
deriving DecidableEq, Repr

/-- The inputs sampled at a rising edge of `clk` (30_encoding.md R81). -/
structure PortIn where
  rst : Bool
  cmdValid : Bool
  cmdOp : BitVec 3
  cmdData : BitVec 32
  rspReady : Bool
deriving DecidableEq, Repr

/-- The outputs during a cycle. `rsp` is `{rsp_status, rsp_data}` where `rsp_valid` is 1 and `none` where it is 0, since
the spec gives the two no value then (30_encoding.md R81, R82). -/
structure PortOut where
  cmdReady : Bool
  rsp : Option RspWord
deriving DecidableEq, Repr

/-- The outputs in a cycle with the given `rst`: both `cmd_ready` and `rsp_valid` are 0 while `rst` is 1
(30_encoding.md R82). -/
def portOut (p : PortState) (rst : Bool) : PortOut :=
  if rst then ⟨false, none⟩
  else
    match p.job with
    | .idle => ⟨true, none⟩
    | .outstanding 0 => ⟨false, p.engine.responses.getLast?.map responseWord⟩
    | .outstanding (_ + 1) => ⟨false, none⟩

/-- The responses delivered to the host: the last one is not while its command is outstanding (30_encoding.md R82). -/
def delivered (p : PortState) : List Response :=
  match p.job with
  | .idle => p.engine.responses
  | .outstanding _ => p.engine.responses.dropLast

/-- The word on the command port (30_encoding.md R81, R83). -/
def portWord (i : PortIn) : CmdWord := cmdWord i.cmdOp i.cmdData

/-- One rising edge of `clk`. `lat` is `LAT_CMD`, the cycles from the acceptance of a command to its response, at least 1
and otherwise open (00_scope.md R7, D26; log 13). With `rst` the engine is reset and an undelivered response is never
delivered (70_reset_and_hazards.md R230, R232); a command is accepted where `cmd_valid` and `cmd_ready` are 1; a response
is delivered where `rsp_valid` and `rsp_ready` are 1 (30_encoding.md R82). -/
def portTick (lat : BitVec 3 → Nat) (p : PortState) (i : PortIn) : Host.Outcome PortState Fault Refusal :=
  if i.rst then .next ⟨resetEngine { p.engine with responses := delivered p }, .idle⟩
  else
    match p.job with
    | .idle =>
      if i.cmdValid then
        andThen (exec (decode (portWord i)) p.engine) fun t => .next ⟨t, .outstanding (lat i.cmdOp - 1)⟩
      else .next p
    | .outstanding 0 => .next (if i.rspReady then { p with job := .idle } else p)
    | .outstanding (left + 1) => .next { p with job := .outstanding left }

/-- The command word accepted at this edge, if any (30_encoding.md R82). -/
def acceptedWord (p : PortState) (i : PortIn) : Option CmdWord :=
  if i.cmdValid && (portOut p i.rst).cmdReady then some (portWord i) else none

/-- The state after a list of edges. -/
def portRun (lat : BitVec 3 → Nat) : PortState → List PortIn → Host.Outcome PortState Fault Refusal
  | p, [] => .next p
  | p, i :: is => andThen (portTick lat p i) fun q => portRun lat q is

/-- The command words accepted over a list of edges, in order. -/
def acceptedWords (lat : BitVec 3 → Nat) : PortState → List PortIn → List CmdWord
  | _, [] => []
  | p, i :: is =>
    (acceptedWord p i).toList ++
      match portTick lat p i with
      | .next q => acceptedWords lat q is
      | _ => []

end Sys2Proof.Machine
end

