-- ==== Sys2Proof/Machine/Run.lean ====
section
/-! DEFINITION. What a run is: a reset and the commands accepted since, each with its delivered response; when it is over,
when it is good, and what is observed of it (43_stream_production.md R180; 60_exceptions.md R207). -/

namespace Sys2Proof.Machine

/-- An accepted command of a run with the response delivered for it (43_stream_production.md R180). -/
structure Exchange where
  word : CmdWord
  response : Response
deriving DecidableEq, Repr

/-- A run since its reset (43_stream_production.md R180). A command presented and not accepted is no part of it. -/
structure Run where
  /-- The commands answered, in order. -/
  exchanges : List Exchange
  /-- The command accepted and not answered yet, if any. -/
  unanswered : Option CmdWord
deriving DecidableEq, Repr

/-- The run a reset begins (43_stream_production.md R180; 00_scope.md R10). -/
def freshRun : Run := ⟨[], none⟩

/-- The commands of a run, in the order they were accepted. -/
def runCommands (r : Run) : List CmdWord := r.exchanges.map Exchange.word ++ r.unanswered.toList

/-- The responses delivered in a run, in order. -/
def runResponses (r : Run) : List Response := r.exchanges.map Exchange.response

/-- The run is over: the response to its last command has been delivered (43_stream_production.md R180). -/
def runOver (r : Run) : Bool := r.unanswered.isNone

/-- No response of the run carries a status other than `OK` (43_stream_production.md R180). -/
abbrev GoodRun (r : Run) : Prop := ∀ x ∈ runResponses r, x.status = .ok

/-- The observation of a good run that is over, the list of its response data; of a failed run, or of one that is not over,
there is none (43_stream_production.md R180; 60_exceptions.md R207). -/
def observation (r : Run) : Option (List Byte) :=
  if runOver r ∧ GoodRun r then some ((runResponses r).map Response.data) else none

/-! ### The transaction level -/

/-- The run after the step from `s` to `t`: a command joins it with the response given for it, and a reset, also one in
place of a response, begins the next (43_stream_production.md R180; 70_reset_and_hazards.md R232). -/
def runAfterStep (r : Run) (s t : State) : Run :=
  match s.inputs with
  | [] => r
  | .command w :: _ =>
    { r with exchanges := r.exchanges ++ (t.responses.drop s.responses.length).map (Exchange.mk w) }
  | .reset :: _ => freshRun
  | .cutOff _ :: _ => freshRun

/-- `k` steps of the machine, with the run they make. -/
def recordSteps : Nat → State → Run → Host.Outcome (State × Run) Fault Refusal
  | 0, s, r => .next (s, r)
  | k + 1, s, r => andThen (step s) fun t => recordSteps k t (runAfterStep r s t)

/-! ### The ports -/

/-- The run after an edge at the ports: an accepted command waits unanswered until the edge that delivers its response
(30_encoding.md R82; 43_stream_production.md R180). -/
def runAfterEdge (r : Run) (p : PortState) (i : PortIn) : Run :=
  if i.rst then freshRun
  else
    match p.job, r.unanswered with
    | .idle, _ => { r with unanswered := acceptedWord p i }
    | .outstanding 0, some w =>
      if i.rspReady then ⟨r.exchanges ++ p.engine.responses.getLast?.toList.map (Exchange.mk w), none⟩ else r
    | _, _ => r

/-- A list of edges at the ports, with the run they make. -/
def recordEdges (lat : BitVec 3 → Nat) : PortState → Run → List PortIn → Host.Outcome (PortState × Run) Fault Refusal
  | p, r, [] => .next (p, r)
  | p, r, i :: is => andThen (portTick lat p i) fun q => recordEdges lat q (runAfterEdge r p i) is

end Sys2Proof.Machine
end

