-- ==== Sys2Proof/Safety.lean ====
section
/-! DEFINITION. The terms claims are made in: what the ring holds, the generations of a ring, runs of commands, and the
invariants of the state (10_state.md R36, 41_ring_update.md R133, 43_stream_production.md R178, R180). -/

namespace Sys2Proof.Machine

/-- The ring of `s` holds the ring value `R`: every cell holds its bit (10_state.md R21). -/
def HoldsRing (s : State) (R : Nat → Bool) : Prop := ∀ i < s.cfg.N, s.ring.read i = some (R i)

/-- The `RUN` states in which a generation can be made: the ring holds `R` and the rule table is `r`. -/
structure Running (s : State) (r : RuleTable) (R : Nat → Bool) : Prop where
  phase : s.phase = .run
  rule : s.rule = some r
  wellFormed : s.ring.WellFormed s.cfg.N
  holds : HoldsRing s R

/-- Generation `t` of the ring value `G0`: `Gt = Step(G(t-1), RULE)` (43_stream_production.md R178). -/
def generation (c : Config) (r : RuleTable) (G0 : Nat → Bool) : Nat → Nat → Bool
  | 0 => G0
  | t + 1 => generationStep c r (generation c r G0 t)

/-- Bit `bt` of the bit stream, the tap of generation `t` (42_extraction.md R156, 43_stream_production.md R178). -/
def streamBit (c : Config) (r : RuleTable) (G0 : Nat → Bool) (t : Nat) : Bool := generation c r G0 t c.TAP

/-- The inverse of the seed mapping, `sum over b of RING[8*i + b] << b` (40_construction.md R114). -/
def seedByteOf (R : Nat → Bool) (i : Nat) : Nat := ((List.range 8).map fun b => (R (8 * i + b)).toNat <<< b).sum

/-- Commands executed one after another (20_memory.md R63). -/
def runInstrs : List Instr → State → Host.Outcome State Fault Refusal
  | [], s => .next s
  | i :: is, s => andThen (exec i s) (runInstrs is)

/-- Command words executed one after another (20_memory.md R63, 43_stream_production.md R180). -/
def runWords : List CmdWord → State → Host.Outcome State Fault Refusal
  | [], s => .next s
  | w :: ws, s => andThen (exec (decode w) s) (runWords ws)

/-- The phase in which a command is legal; none for the reserved opcodes (30_encoding.md R87, R94). -/
def legalPhase : Instr → Option Phase
  | .setRule _ => some .cfg
  | .seedByte _ => some .cfg
  | .start => some .cfg
  | .nextBit => some .run
  | .nextByte => some .run
  | .reserved0 => none
  | .reserved6 => none
  | .reserved7 => none

/-- The bits of the stream a command takes, in order, as its response datum shows them: one of `NEXT_BIT`, in bit 0; eight
of `NEXT_BYTE`, the first in bit 0 (42_extraction.md R156). -/
def bitsTaken (i : Instr) (data : Byte) : List Bool :=
  match i with
  | .nextBit => [data.getLsbD 0]
  | .nextByte => (List.range 8).map data.getLsbD
  | _ => []

/-- The seed bytes among commands, in order. -/
def seedBytesIn (is : List Instr) : List Byte :=
  is.filterMap fun i =>
    match i with
    | .seedByte b => some b
    | _ => none

/-- The rule numbers among commands, in order. -/
def rulesIn (is : List Instr) : List RuleTable :=
  is.filterMap fun i =>
    match i with
    | .setRule r => some r
    | _ => none

/-- The invariants of the state (10_state.md R36 items 2 to 6; item 1 is the type of `PHASE`) and the canonical form of
the ring (log 2). -/
structure Inv (s : State) : Prop where
  /-- The ring is in canonical form. -/
  wellFormed : s.ring.WellFormed s.cfg.N
  /-- Item 2: `ERR` = 0 if and only if `PHASE` is not `FAILED`. -/
  err_ok_iff : s.err = .ok ↔ s.phase ≠ .failed
  /-- Item 3: `SEEDCNT <= N/8`. -/
  seedCnt_le : s.seedCnt ≤ s.cfg.seedBytes
  /-- Item 4: in `CFG` a cell holds a value if and only if its index is below `8 * SEEDCNT`. -/
  cfg_cells : s.phase = .cfg → ∀ i < s.cfg.N, ((s.ring.read i).isSome ↔ i < 8 * s.seedCnt)
  /-- Item 5: in `RUN` every cell holds a value. -/
  run_cells : s.phase = .run → ∀ i < s.cfg.N, (s.ring.read i).isSome
  /-- Item 5: in `RUN`, `RULE_VALID` = 1. -/
  run_ruleValid : s.phase = .run → s.ruleValid = true
  /-- Item 5: in `RUN`, `SEEDCNT` = `N/8`. -/
  run_seedCnt : s.phase = .run → s.seedCnt = s.cfg.seedBytes
  /-- Item 6: `RULE` holds a value if and only if `RULE_VALID` = 1. -/
  rule_iff : s.rule.isSome ↔ s.ruleValid = true

end Sys2Proof.Machine
end

