-- ==== Sys2Proof/Certificates/Slice0/Obligations.lean ====
section
/-! DEFINITION. The statements for the provers, each over every configuration, every state and every operand it names. -/

open Sys2Proof Sys2Proof.Machine

/-! ### Encoding -/

/-- R83 to R86: decoding an encoded command gives it back; encoding a decoded word gives the word with its unused operand
bits 0 (that the encoder writes them 0 is the model's choice, log 11). -/
def Obligations.DecodeEncodeAgree : Prop :=
  (∀ i : Instr, decode (encode i) = i) ∧
  ∀ w : CmdWord, encode (decode w) =
    w &&& (if opField w = 1 then 0x7FFFFFFFF#35 else if opField w = 2 then 0x7000000FF#35 else 0x700000000#35)

/-- R84, R87: under the mask every word is the `match` of the row it decodes to and of no other row, so the eight rows
share out the 2^35 words. -/
def Obligations.WordsMatchTheirOpcodeRow : Prop :=
  ∀ w : CmdWord, w &&& 0x700000000#35 = rowMatch (decode w) ∧
    ∀ i : Instr, w &&& 0x700000000#35 = rowMatch i → opcode i = opcode (decode w)

/-- R86: words that differ only in unused operand bits are the same command. -/
def Obligations.UnusedOperandBitsAreIgnored : Prop :=
  ∀ (op : BitVec 3) (d d' : BitVec 32), op ≠ 1 → (op = 2 → d.setWidth 8 = d'.setWidth 8) →
    decode (cmdWord op d) = decode (cmdWord op d')

/-- The command words of 95_test_vectors.md family A decode to the commands they stand for. -/
def Obligations.SpecWordsDecode : Prop :=
  decode 0x1017FFE80#35 = .setRule 25165440#32 ∧ decode 0x1FFFFFFFF#35 = .setRule 0xFFFFFFFF#32 ∧
  decode 0x20000008D#35 = .seedByte 0x8D#8 ∧ decode 0x2ABCDEF8D#35 = .seedByte 0x8D#8 ∧
  decode 0x300000000#35 = .start ∧ decode 0x4DEADBEEF#35 = .nextBit ∧ decode 0x500000000#35 = .nextByte ∧
  decode 0x000000000#35 = .reserved0 ∧ decode 0x600000000#35 = .reserved6 ∧ decode 0x7FFFFFFFF#35 = .reserved7

/-- A table row's bits decode as the command word they make; a set bit above bit 34 is rejected (the model's choice,
log 11). -/
def Obligations.TableWordsDecode : Prop :=
  ∀ nbits w : Nat, decodeTableWord nbits w =
    if w % 2 ^ nbits < 2 ^ 35 then some (decode (BitVec.ofNat 35 (w % 2 ^ nbits))) else none

/-- R92: a line with operands in range assembles to the one word of its command, the operand unchanged; out of range it
assembles to nothing. -/
def Obligations.LinesAssembleToTheirCommands : Prop :=
  (∀ r : Nat, r < 2 ^ 32 → ∃ w x, (Line.setRule r).assemble = some [.command w] ∧ decode w = .setRule x ∧ x.toNat = r) ∧
  (∀ b : Nat, b < 256 → ∃ w x, (Line.seedByte b).assemble = some [.command w] ∧ decode w = .seedByte x ∧ x.toNat = b) ∧
  (∃ w, Line.start.assemble = some [.command w] ∧ decode w = .start) ∧
  (∃ w, Line.nextBit.assemble = some [.command w] ∧ decode w = .nextBit) ∧
  (∃ w, Line.nextByte.assemble = some [.command w] ∧ decode w = .nextByte) ∧
  Line.reset.assemble = some [.reset] ∧
  (∀ r : Nat, 2 ^ 32 ≤ r → (Line.setRule r).assemble = none) ∧ ∀ b : Nat, 256 ≤ b → (Line.seedByte b).assemble = none

/-- R88, R89: the response word is the status in bits 10 to 8 and the datum in bits 7 to 0; the status codes are 0, 2 and
6. -/
def Obligations.ResponseWordLayout : Prop :=
  ∀ (st : Status) (d : Byte), (responseWord ⟨st, d⟩).toNat = (statusCode st).toNat * 256 + d.toNat ∧
    (statusCode st).toNat = match st with
      | .ok => 0
      | .error .seedTooShort => 2
      | .error .protocolViolation => 6

/-! ### Configuration and index -/

/-- R8, R194: the block is elaborated exactly for the powers of two from 8 up, with that ring length. -/
def Obligations.ElaborationAcceptsRingLengths : Prop :=
  ∀ N : Nat, ((Config.elaborate N).isSome ↔ ∃ n, 3 ≤ n ∧ N = 2 ^ n) ∧ ∀ c, Config.elaborate N = some c → c.N = N

/-- R56: the circular index is `(i + N + d) & MASK`, the sum lies in `N-2 .. 2N+1`, and the index is `(i + d) mod N`. -/
def Obligations.WrapIsIndexModuloRingLength : Prop :=
  ∀ (c : Config) (i : Nat) (d : Offset), i < c.N →
    (∃ x : Nat, (x : Int) = i + c.N + d.toInt ∧ wrap c i d = x &&& (c.N - 1) ∧ c.N - 2 ≤ x ∧ x ≤ 2 * c.N + 1) ∧
    (wrap c i d : Int) = (i + d.toInt) % c.N ∧ wrap c i d < c.N

/-- R138: the five indices of a neighbourhood are five different cells. -/
def Obligations.FiveNeighbourCellsAreDistinct : Prop :=
  ∀ (c : Config) (i : Nat), i < c.N → ∀ d d' : Offset, wrap c i d = wrap c i d' → d = d'

/-- R54, R55: a cell written holds the bit written, and no other cell changes; nor does anything else of the state. That
an index outside the ring faults is the model's choice (log 10). -/
def Obligations.RingReadsBackWhatWasWritten : Prop :=
  ∀ (s : State) (i : Nat) (v : Bool),
    (i < s.cfg.N → ∃ t, ringWrite i v s = .next t ∧ t = { s with ring := t.ring } ∧ ringRead t i = .next v ∧
      (∀ j, j ≠ i → t.ring.read j = s.ring.read j) ∧ (s.ring.WellFormed s.cfg.N → t.ring.WellFormed s.cfg.N)) ∧
    (s.cfg.N ≤ i → ringWrite i v s = .fault (.noSuchCell i) ∧ ringRead s i = .fault (.noSuchCell i))

/-! ### The step -/

/-- R131: the neighbourhood integer, cell `i-2` in bit 4 down to cell `i+2` in bit 0. -/
def Obligations.NeighbourhoodIntegerPacksFiveCells : Prop :=
  ∀ (c : Config) (R : Nat → Bool) (i : Nat), i < c.N →
    (nbh c R i).toNat =
      (R ((i + c.N - 2) &&& (c.N - 1))).toNat <<< 4 ||| (R ((i + c.N - 1) &&& (c.N - 1))).toNat <<< 3 |||
      (R i).toNat <<< 2 ||| (R ((i + c.N + 1) &&& (c.N - 1))).toNat <<< 1 ||| (R ((i + c.N + 2) &&& (c.N - 1))).toNat

/-- R132: the next state of a cell is `(rule >> nbh(R, i)) & 1`. -/
def Obligations.NextCellIsRuleBit : Prop :=
  ∀ (c : Config) (r : RuleTable) (R : Nat → Bool) (i : Nat),
    (generationStep c r R i).toNat = (r.toNat >>> (nbh c R i).toNat) &&& 1

/-- R133, R134: one step replaces every cell by the next state computed from the old ring, adds 1 to the ghost `GEN`, and
touches nothing else. -/
def Obligations.StepMakesNextGenerationFromOldRing : Prop :=
  ∀ (s : State) (r : RuleTable) (R : Nat → Bool), Running s r R →
    ∃ t, ringStep s = .next t ∧ t = { s with ring := t.ring, gen := s.gen + 1 } ∧
      (∀ i < s.cfg.N, t.ring.read i = some (r.getLsbD (nbh s.cfg R i).toNat)) ∧
      ∀ i, s.cfg.N ≤ i → t.ring.read i = none

/-- R139: the rule numbers with a closed-form step. -/
def Obligations.ClosedFormRuleNumbers : Prop :=
  ∀ (c : Config) (R : Nat → Bool) (i : Nat), i < c.N →
    generationStep c 0x00000000#32 R i = false ∧ generationStep c 0xFFFFFFFF#32 R i = true ∧
    generationStep c 0xF0F0F0F0#32 R i = R i ∧
    generationStep c 0xFF00FF00#32 R i = R (wrap c i .left1) ∧
    generationStep c 0xFFFF0000#32 R i = R (wrap c i .left2) ∧
    generationStep c 0xCCCCCCCC#32 R i = R (wrap c i .right1) ∧
    generationStep c 0xAAAAAAAA#32 R i = R (wrap c i .right2) ∧
    generationStep c 0x96696996#32 R i =
      (R (wrap c i .left2) ^^ R (wrap c i .left1) ^^ R i ^^ R (wrap c i .right1) ^^ R (wrap c i .right2)) ∧
    generationStep c 0x03FC03FC#32 R i = (R (wrap c i .left1) ^^ (R i || R (wrap c i .right1))) ∧
    generationStep c 0x00010000#32 R i =
      (R (wrap c i .left2) && !R (wrap c i .left1) && !R i && !R (wrap c i .right1) && !R (wrap c i .right2)) ∧
    generationStep c 0x00000002#32 R i =
      (!R (wrap c i .left2) && !R (wrap c i .left1) && !R i && !R (wrap c i .right1) && R (wrap c i .right2))

/-- R158, R133 (no special cell): rotating the ring by `k` cells rotates every generation by `k` cells, so reading cell
`TAP` of the one is reading cell `TAP + k` of the other. -/
def Obligations.GenerationsCommuteWithRotation : Prop :=
  ∀ (c : Config) (r : RuleTable) (R : Nat → Bool) (k t i : Nat), i < c.N →
    generation c r (fun j => R ((j + k) % c.N)) t i = generation c r R t ((i + k) % c.N)

/-- R140: two buffers with a selector, or one with a temporary and the cells written in any order, make the step of
R133. -/
def Obligations.BufferedStepsEqualTheStep : Prop :=
  ∀ (s : State) (r : RuleTable) (R : Nat → Bool), Running s r R →
    ∃ m, ringStep s = .next { s with ring := m, gen := s.gen + 1 } ∧
      (∀ order : List Nat, order.Perm (List.range s.cfg.N) → temporaryStep s.cfg r order s.ring = some m) ∧
      ∀ b : Buffers, activeBuffer b = s.ring →
        ∃ b', doubleBufferedStep s.cfg r b = some b' ∧ b'.sel = !b.sel ∧ activeBuffer b' = m

/-! ### The commands -/

/-- R111: `SET_RULE`, its word, its effect in `CFG` and all it leaves unchanged, its errors. -/
def Obligations.SetRuleLoadsTheRuleTable : Prop :=
  ∀ (s : State) (r : RuleTable), decode (cmdWord 1 r) = .setRule r ∧
    (s.phase = .cfg → exec (.setRule r) s =
      .next { s with rule := some r, ruleValid := true, responses := s.responses ++ [⟨.ok, 0⟩] }) ∧
    (s.phase = .run → exec (.setRule r) s =
      .next { s with err := .error .protocolViolation, phase := .failed,
                     responses := s.responses ++ [⟨.error .protocolViolation, 0⟩] }) ∧
    (s.phase = .failed → exec (.setRule r) s = .next { s with responses := s.responses ++ [⟨s.err, 0⟩] })

/-- R112: `SEED_BYTE`, its word, its effect in `CFG` and all it leaves unchanged, its errors. -/
def Obligations.SeedByteStoresTheNextByte : Prop :=
  ∀ (s : State) (b : Byte), (∀ d : BitVec 32, decode (cmdWord 2 d) = .seedByte (d.setWidth 8)) ∧
    (s.phase = .cfg → s.seedCnt < s.cfg.N / 8 →
      ∃ t, exec (.seedByte b) s = .next t ∧
        t = { s with ring := t.ring, seedCnt := s.seedCnt + 1, responses := s.responses ++ [⟨.ok, 0⟩] } ∧
        (∀ j < 8, t.ring.read (8 * s.seedCnt + j) = some (b.getLsbD j)) ∧
        ∀ i, i < 8 * s.seedCnt ∨ 8 * s.seedCnt + 8 ≤ i → t.ring.read i = s.ring.read i) ∧
    ((s.phase = .cfg ∧ s.seedCnt = s.cfg.N / 8) ∨ s.phase = .run → exec (.seedByte b) s =
      .next { s with err := .error .protocolViolation, phase := .failed,
                     responses := s.responses ++ [⟨.error .protocolViolation, 0⟩] }) ∧
    (s.phase = .failed → exec (.seedByte b) s = .next { s with responses := s.responses ++ [⟨s.err, 0⟩] })

/-- R113: `START`, its words, its effect in `CFG` and all it leaves unchanged, its errors and their order. -/
def Obligations.StartEndsConstruction : Prop :=
  ∀ s : State, (∀ d : BitVec 32, decode (cmdWord 3 d) = .start) ∧
    (s.phase = .cfg → s.ruleValid = true → s.cfg.N / 8 ≤ s.seedCnt → exec .start s =
      .next { s with phase := .run, gen := 0, responses := s.responses ++ [⟨.ok, 0⟩] }) ∧
    (s.phase = .cfg → s.ruleValid = true → s.seedCnt < s.cfg.N / 8 → exec .start s =
      .next { s with err := .error .seedTooShort, phase := .failed,
                     responses := s.responses ++ [⟨.error .seedTooShort, 0⟩] }) ∧
    ((s.phase = .cfg ∧ s.ruleValid = false) ∨ s.phase = .run → exec .start s =
      .next { s with err := .error .protocolViolation, phase := .failed,
                     responses := s.responses ++ [⟨.error .protocolViolation, 0⟩] }) ∧
    (s.phase = .failed → exec .start s = .next { s with responses := s.responses ++ [⟨s.err, 0⟩] })

/-- R151: `NEXT_BIT`, its words, its effect in `RUN` and all it leaves unchanged, its errors. -/
def Obligations.NextBitStepsThenReturnsTheTap : Prop :=
  ∀ s : State, (∀ d : BitVec 32, decode (cmdWord 4 d) = .nextBit) ∧
    (∀ (r : RuleTable) (R : Nat → Bool), Running s r R →
      ∃ t, exec .nextBit s = .next t ∧
        t = { s with ring := t.ring, gen := s.gen + 1,
                     responses := s.responses ++
                       [⟨.ok, if generationStep s.cfg r R (s.cfg.N / 2) then 0x01#8 else 0x00#8⟩] } ∧
        (∀ i < s.cfg.N, t.ring.read i = some (generationStep s.cfg r R i)) ∧
        ∀ i, s.cfg.N ≤ i → t.ring.read i = none) ∧
    (s.phase = .cfg → exec .nextBit s =
      .next { s with err := .error .protocolViolation, phase := .failed,
                     responses := s.responses ++ [⟨.error .protocolViolation, 0⟩] }) ∧
    (s.phase = .failed → exec .nextBit s = .next { s with responses := s.responses ++ [⟨s.err, 0⟩] })

/-- R152: `NEXT_BYTE`, its words, its effect in `RUN` and all it leaves unchanged, its errors: bit `j` of the datum is the
tap after step `j + 1`. -/
def Obligations.NextBytePacksEightTaps : Prop :=
  ∀ s : State, (∀ d : BitVec 32, decode (cmdWord 5 d) = .nextByte) ∧
    (∀ (r : RuleTable) (R : Nat → Bool), Running s r R →
      ∃ t b, exec .nextByte s = .next t ∧
        t = { s with ring := t.ring, gen := s.gen + 8, responses := s.responses ++ [⟨.ok, b⟩] } ∧
        (∀ j < 8, b.getLsbD j = generation s.cfg r R (j + 1) (s.cfg.N / 2)) ∧
        (∀ i < s.cfg.N, t.ring.read i = some (generation s.cfg r R 8 i)) ∧
        ∀ i, s.cfg.N ≤ i → t.ring.read i = none) ∧
    (s.phase = .cfg → exec .nextByte s =
      .next { s with err := .error .protocolViolation, phase := .failed,
                     responses := s.responses ++ [⟨.error .protocolViolation, 0⟩] }) ∧
    (s.phase = .failed → exec .nextByte s = .next { s with responses := s.responses ++ [⟨s.err, 0⟩] })

/-- R87: the reserved opcodes, whatever their operand bits, raise `ProtocolViolation` in `CFG` and `RUN`, and so does a
command in a phase where it is not legal; in `FAILED` the recorded error is answered. -/
def Obligations.ReservedOpcodesRaiseProtocolViolation : Prop :=
  (∀ d : BitVec 32, decode (cmdWord 0 d) = .reserved0 ∧ decode (cmdWord 6 d) = .reserved6 ∧
    decode (cmdWord 7 d) = .reserved7) ∧
  (∀ (i : Instr) (s : State), i = .reserved0 ∨ i = .reserved6 ∨ i = .reserved7 ∨ legalPhase i ≠ some s.phase →
    s.phase ≠ .failed → exec i s =
      .next { s with err := .error .protocolViolation, phase := .failed,
                     responses := s.responses ++ [⟨.error .protocolViolation, 0⟩] }) ∧
  ∀ (i : Instr) (s : State), s.phase = .failed →
    exec i s = .next { s with responses := s.responses ++ [⟨s.err, 0⟩] }

/-- R95: the checks made before a command's own rule, first match wins, on the opcode of its word. -/
def Obligations.CommonChecksComeFirst : Prop :=
  ∀ (w : CmdWord) (s : State),
    if s.phase = .failed then exec (decode w) s = .next { s with responses := s.responses ++ [⟨s.err, 0⟩] }
    else if (opField w = 0 ∨ opField w = 6 ∨ opField w = 7) ∨
        ((opField w = 1 ∨ opField w = 2 ∨ opField w = 3) ∧ s.phase ≠ .cfg) ∨
        ((opField w = 4 ∨ opField w = 5) ∧ s.phase ≠ .run) then
      exec (decode w) s =
        .next { s with err := .error .protocolViolation, phase := .failed,
                       responses := s.responses ++ [⟨.error .protocolViolation, 0⟩] }
    else legalPhase (decode w) = some s.phase

/-! ### Faults and phases -/

/-- R201: the status of a command's response is the first error that applies, in the order of the rule, and `OK` where
none does, in every state that meets the invariants (R36). -/
def Obligations.FirstErrorThatAppliesIsReported : Prop :=
  ∀ (w : CmdWord) (s : State), Inv s → ∃ t x, exec (decode w) s = .next t ∧ t.responses = s.responses ++ [x] ∧
    x.status =
      if s.phase = .failed then s.err
      else if opField w = 0 ∨ opField w = 6 ∨ opField w = 7 then .error .protocolViolation
      else if (opField w = 1 ∨ opField w = 2 ∨ opField w = 3) ∧ s.phase ≠ .cfg ∨
          (opField w = 4 ∨ opField w = 5) ∧ s.phase ≠ .run then .error .protocolViolation
      else if opField w = 2 ∧ s.seedCnt = s.cfg.N / 8 then .error .protocolViolation
      else if opField w = 3 ∧ s.ruleValid = false then .error .protocolViolation
      else if opField w = 3 ∧ s.seedCnt < s.cfg.N / 8 then .error .seedTooShort
      else .ok

/-- R202: a command that takes the engine to `FAILED` writes `ERR` and `PHASE` and gives the response with the same code
and datum 0, and writes nothing else; the code is `SeedTooShort` only for `START`. -/
def Obligations.FaultEntryWritesErrAndPhaseOnly : Prop :=
  ∀ (i : Instr) (s t : State), exec i s = .next t → s.phase ≠ .failed → t.phase = .failed →
    ∃ e : Error, t = { s with err := .error e, phase := .failed, responses := s.responses ++ [⟨.error e, 0⟩] } ∧
      (e = .seedTooShort → i = .start)

/-- R204, R205: from `FAILED` every list of command words is answered with the recorded error, word by word, and changes
nothing else. -/
def Obligations.FailedEngineRepeatsTheRecordedError : Prop :=
  ∀ (ws : List CmdWord) (s : State), s.phase = .failed →
    runWords ws s = .next { s with responses := s.responses ++ List.replicate ws.length ⟨s.err, 0⟩ }

/-- R40: the phase after a command, by the phase before and the command, where `SEEDCNT` is at most `N/8` (R36 item 3, kept
by every step: `InvariantsKeptByEveryStep`); and reset leads to `CFG` from any phase. -/
def Obligations.PhaseMachine : Prop :=
  (∀ (i : Instr) (s t : State), s.seedCnt ≤ s.cfg.N / 8 → exec i s = .next t →
    t.phase = match s.phase, i with
      | .failed, _ => .failed
      | .run, .nextBit => .run
      | .run, .nextByte => .run
      | .run, _ => .failed
      | .cfg, .setRule _ => .cfg
      | .cfg, .seedByte _ => if s.seedCnt = s.cfg.N / 8 then .failed else .cfg
      | .cfg, .start => if s.ruleValid = true ∧ s.seedCnt = s.cfg.N / 8 then .run else .failed
      | .cfg, _ => .failed) ∧
  ∀ (s : State) (es : List HostEvent), s.inputs = .reset :: es → ∃ t, step s = .next t ∧ t.phase = .cfg

/-- R247: no list of commands takes a `RUN` or `FAILED` engine back to `CFG`, and none changes its rule table or its count
of seed bytes; and nothing of the engine carries over a reset (that the responses given and the host's further acts are
kept is the model's, log 6). -/
def Obligations.NoCommandReturnsToConstruction : Prop :=
  (∀ (ws : List CmdWord) (s t : State), s.phase ≠ .cfg → runWords ws s = .next t →
    t.phase ≠ .cfg ∧ t.rule = s.rule ∧ t.ruleValid = s.ruleValid ∧ t.seedCnt = s.seedCnt) ∧
  ∀ (s : State) (es : List HostEvent), s.inputs = .reset :: es →
    step s = .next { State.resetOf s.cfg with inputs := es, responses := s.responses }

/-- R20 (who writes each element): a command changes an element only if it is one of the element's writers, in the phase
where it is legal. The new cells of the ring are those of `SeedByteStoresTheNextByte`, `NextBitStepsThenReturnsTheTap` and
`NextBytePacksEightTaps`. -/
def Obligations.EachElementHasItsWriters : Prop :=
  ∀ (i : Instr) (s t : State), exec i s = .next t →
    (t.ring ≠ s.ring → (s.phase = .cfg ∧ ∃ b, i = .seedByte b) ∨ (s.phase = .run ∧ (i = .nextBit ∨ i = .nextByte))) ∧
    (t.rule ≠ s.rule ∨ t.ruleValid ≠ s.ruleValid →
      s.phase = .cfg ∧ ∃ r, i = .setRule r ∧ t.rule = some r ∧ t.ruleValid = true) ∧
    (t.seedCnt ≠ s.seedCnt → s.phase = .cfg ∧ (∃ b, i = .seedByte b) ∧ t.seedCnt = s.seedCnt + 1) ∧
    (t.phase ≠ s.phase → (i = .start ∧ s.phase = .cfg ∧ t.phase = .run) ∨ t.phase = .failed) ∧
    (t.err ≠ s.err → s.phase ≠ .failed ∧ t.phase = .failed ∧ t.err ≠ .ok) ∧
    (t.gen ≠ s.gen → (s.phase = .cfg ∧ i = .start ∧ t.gen = 0) ∨ (s.phase = .run ∧ i = .nextBit ∧ t.gen = s.gen + 1) ∨
      (s.phase = .run ∧ i = .nextByte ∧ t.gen = s.gen + 8)) ∧
    t.cfg = s.cfg ∧ t.inputs = s.inputs

/-- R80: an executed command gives exactly one response; in `FAILED` and on an error its datum is 0 (R90), and the status
is `OK` exactly where the engine is not in `FAILED` after it, in states where `ERR` agrees with `PHASE` (R36 item 2). -/
def Obligations.OneResponsePerCommand : Prop :=
  ∀ (i : Instr) (s t : State), exec i s = .next t → ∃ x : Response, t.responses = s.responses ++ [x] ∧
    (x.status ≠ .ok → x.data = 0) ∧ ((s.err = .ok ↔ s.phase ≠ .failed) → (x.status = .ok ↔ t.phase ≠ .failed))

/-- R155: a response with a datum other than 0 comes of a command that advanced the ring. -/
def Obligations.NoReadWithoutAdvance : Prop :=
  ∀ (i : Instr) (s t : State) (x : Response), exec i s = .next t → t.responses = s.responses ++ [x] → x.data ≠ 0 →
    s.phase = .run ∧ (i = .nextBit ∧ t.gen = s.gen + 1 ∨ i = .nextByte ∧ t.gen = s.gen + 8)

/-! ### The machine -/

/-- R63, R80: a command word the host presents is decoded and executed by the step, the word being taken from what the
host will do and nothing else being changed around it. -/
def Obligations.StepRunsTheDecodedCommand : Prop :=
  ∀ (s : State) (w : CmdWord) (es : List HostEvent), s.inputs = .command w :: es →
    step s = exec (decode w) { s with inputs := es }

/-- R214: where the host does nothing, the state is held. -/
def Obligations.IdleEngineHoldsItsState : Prop := ∀ s : State, s.inputs = [] → step s = .next s

/-- R230: reset gives every element of the engine its reset value, from any state. -/
def Obligations.ResetGivesTheResetValues : Prop :=
  ∀ (s : State) (es : List HostEvent), s.inputs = .reset :: es →
    ∃ t, step s = .next t ∧ t.phase = .cfg ∧ statusCode t.err = 0 ∧ t.ruleValid = false ∧ t.seedCnt = 0 ∧
      t.rule = none ∧ ∀ i, t.ring.read i = none

/-- R232: a command cut off by reset gives no response and leaves what reset leaves; at the ports, the response not yet
delivered is dropped. That responses already given, the configuration and the rest of the host's acts stay is the model's
(log 6), and so is that the undelivered response is the last of the record, the effect being taken at acceptance (log 13). -/
def Obligations.ResetDuringACommandLeavesNoResponse : Prop :=
  (∀ (s : State) (w : CmdWord) (es : List HostEvent), s.inputs = .cutOff w :: es →
    step s = .next { State.resetOf s.cfg with inputs := es, responses := s.responses }) ∧
  ∀ (lat : BitVec 3 → Nat) (p : PortState) (i : PortIn) (left : Nat), i.rst = true → p.job = .outstanding left →
    portTick lat p i = .next ⟨{ State.resetOf p.engine.cfg with
                                 inputs := p.engine.inputs, responses := p.engine.responses.dropLast }, .idle⟩

/-- Steps over a list of command words are the commands executed one after another, in the host's order (R63). -/
def Obligations.RunOfStepsIsRunOfCommands : Prop :=
  ∀ (ws : List CmdWord) (s : State), s.inputs = [] →
    Host.Core.run core ws.length { s with inputs := ws.map .command } = runWords ws s

/-- R177, R230, R247 (nothing carries over): two blocks of one configuration, in any two states whatever, answer a reset
and the same list of command words with the same responses, one for each word, and end in the same state but for the
responses given before. That those stay in the state is the model's choice (log 6). -/
def Obligations.NothingSurvivesReset : Prop :=
  ∀ (ws : List CmdWord) (s s' : State), s.cfg = s'.cfg → s.inputs = .reset :: ws.map .command →
    s'.inputs = .reset :: ws.map .command →
    ∃ (t t' : State) (new : List Response), Host.Core.run core (ws.length + 1) s = .next t ∧
      Host.Core.run core (ws.length + 1) s' = .next t' ∧ new.length = ws.length ∧
      t.responses = s.responses ++ new ∧ t'.responses = s'.responses ++ new ∧
      { t with responses := [] } = { t' with responses := [] }

/-- R180: for every list of command words there is one run, the same from every state of the configuration before the reset
and whatever was recorded before: it is over, its commands are the words, its responses are those given since the reset, it
is good exactly where the engine has not failed, and then its observation is the list of response data, else there is none.
That the responses given before the reset stay in the state is the model's choice (log 6); they are no part of the run. -/
def Obligations.ARunIsAResetAndItsCommandsWithResponses : Prop :=
  ∀ (c : Config) (ws : List CmdWord), ∃ run : Run, runOver run = true ∧ runCommands run = ws ∧
    (runResponses run).length = ws.length ∧
    ∀ (s : State) (r : Run), s.cfg = c → s.inputs = .reset :: ws.map .command →
      ∃ t, recordSteps (ws.length + 1) s r = .next (t, run) ∧ t.responses = s.responses ++ runResponses run ∧
        (GoodRun run ↔ t.phase ≠ .failed) ∧
        observation run = if t.phase = .failed then none else some ((runResponses run).map Response.data)

/-- R36: the invariants hold after reset, for every configuration. -/
def Obligations.InvariantsHoldAfterReset : Prop := (∀ c : Config, Inv (State.resetOf c)) ∧ Inv State.reset

/-- R36: the invariants are kept by every step, and in `RUN` the rule table stays what it was. The canonical form of the
ring in `Inv` is the model's (log 2). -/
def Obligations.InvariantsKeptByEveryStep : Prop :=
  ∀ s t : State, Inv s → step s = .next t → Inv t ∧ (s.phase = .run → t.phase = .run → t.rule = s.rule)

/-- R61, R80, R243: from every state that meets the invariants every command is answered: no cell or rule without a value
is read, no cell outside the ring is written, and exactly one response is given. -/
def Obligations.EveryCommandIsAnswered : Prop :=
  ∀ s : State, Inv s → ∀ i : Instr, ∃ t x, exec i s = .next t ∧ t.responses = s.responses ++ [x] ∧ Inv t

/-- R50: no command takes a ring out of its canonical form, in any state. -/
def Obligations.CanonicalRingKept : Prop :=
  ∀ (i : Instr) (s t : State), exec i s = .next t → s.ring.WellFormed s.cfg.N → t.ring.WellFormed t.cfg.N

/-! ### Construction and the stream -/

/-- R114: after any list of `N/8` seed bytes every cell holds its bit of its byte and the inverse mapping gives the bytes
back; and every ring value is the ring of some list of `N/8` seed bytes. -/
def Obligations.SeedMappingRoundTrip : Prop :=
  (∀ (c : Config) (seed : List Byte), seed.length = c.N / 8 →
    ∃ (t : State) (R : Nat → Bool), runInstrs (seed.map .seedByte) (State.resetOf c) = .next t ∧ HoldsRing t R ∧
      ∀ i < c.N / 8, seedByteOf R i = (seed.getD i 0).toNat ∧ ∀ b < 8, R (8 * i + b) = (seed.getD i 0).getLsbD b) ∧
  ∀ (c : Config) (R : Nat → Bool), ∃ (seed : List Byte) (t : State), seed.length = c.N / 8 ∧
    runInstrs (seed.map .seedByte) (State.resetOf c) = .next t ∧ HoldsRing t R

/-- R115: construction as a whole, the rule numbers anywhere among the seed bytes, the last one governing. -/
def Obligations.ConstructionAsAWhole : Prop :=
  ∀ (c : Config) (r : RuleTable) (seed : List Byte) (is : List Instr),
    (∀ i ∈ is, (∃ r, i = .setRule r) ∨ ∃ b, i = .seedByte b) → seedBytesIn is = seed → seed.length = c.N / 8 →
    (rulesIn is).getLast? = some r →
    ∃ t, runInstrs (is ++ [.start]) (State.resetOf c) = .next t ∧ t.phase = .run ∧ t.err = .ok ∧ t.rule = some r ∧
      t.ruleValid = true ∧ t.seedCnt = c.N / 8 ∧
      (∀ i < c.N / 8, ∀ b < 8, t.ring.read (8 * i + b) = some ((seed.getD i 0).getLsbD b)) ∧
      t.responses = List.replicate (is.length + 1) ⟨.ok, 0⟩

/-- R174: the words `INIT` expands to, and what they come to with exactly `N/8` seed bytes, with fewer, and with more, from
any state before. That the unused operand bits of the words are 0 is the model's choice (log 11), and so is that the responses
given before the reset stay in the record (log 6). -/
def Obligations.InitConstructsOrFails : Prop :=
  ∀ (s : State) (r : Nat) (bs : List Nat), (Line.init r bs).wellFormed = true →
    (Line.init r bs).expand = [.reset, .command (cmdWord 1 (BitVec.ofNat 32 r))] ++
      bs.map (fun b => .command (cmdWord 2 (BitVec.ofNat 32 b))) ++ [.command (cmdWord 3 0)] ∧
    (s.inputs = (Line.init r bs).expand →
    ∃ t, Host.Core.run core (bs.length + 3) s = .next t ∧ t.inputs = [] ∧
      (bs.length = s.cfg.N / 8 →
        t.phase = .run ∧ t.err = .ok ∧ t.rule = some (BitVec.ofNat 32 r) ∧ t.ruleValid = true ∧
        t.seedCnt = s.cfg.N / 8 ∧
        (∀ i < s.cfg.N / 8, ∀ b < 8, t.ring.read (8 * i + b) = some ((bs.getD i 0).testBit b)) ∧
        t.responses = s.responses ++ List.replicate (bs.length + 2) ⟨.ok, 0⟩) ∧
      (bs.length < s.cfg.N / 8 →
        t.responses = s.responses ++ List.replicate (bs.length + 1) ⟨.ok, 0⟩ ++ [⟨.error .seedTooShort, 0⟩]) ∧
      (s.cfg.N / 8 < bs.length →
        t.responses = s.responses ++ List.replicate (s.cfg.N / 8 + 1) ⟨.ok, 0⟩ ++
          List.replicate (bs.length - s.cfg.N / 8 + 1) ⟨.error .protocolViolation, 0⟩))

/-- R154: one `NEXT_BYTE` leaves what eight `NEXT_BIT`s leave, and its datum is their bits, the first least
significant. -/
def Obligations.NextByteIsEightNextBits : Prop :=
  ∀ (s : State) (r : RuleTable) (R : Nat → Bool), Running s r R →
    ∃ (t u : State) (b : Byte) (v : Nat → Bool), exec .nextByte s = .next t ∧
      runInstrs (List.replicate 8 .nextBit) s = .next u ∧
      t.responses = s.responses ++ [⟨.ok, b⟩] ∧
      u.responses = s.responses ++ (List.range 8).map (fun k => ⟨.ok, BitVec.ofNat 8 (v k).toNat⟩) ∧
      { t with responses := [] } = { u with responses := [] } ∧
      b.toNat = ((List.range 8).map fun k => 2 ^ k * (v k).toNat).sum

/-- R178: from generation 0, byte number `m` of a stream of `NEXT_BYTE`s is the sum over `j` of `b(8m + j + 1) << j`. -/
def Obligations.ByteStreamFormula : Prop :=
  ∀ (s : State) (r : RuleTable) (G0 : Nat → Bool) (k : Nat), Running s r G0 →
    ∃ t, runInstrs (List.replicate k .nextByte) s = .next t ∧
      t.responses = s.responses ++ (List.range k).map (fun m => ⟨.ok, BitVec.ofNat 8
        ((List.range 8).map fun j => (streamBit s.cfg r G0 (8 * m + j + 1)).toNat <<< j).sum⟩) ∧
      Running t r (generation s.cfg r G0 (8 * k))

/-- R156: any mix of `NEXT_BIT`s and `NEXT_BYTE`s takes the bits of the one stream `b1, b2, ...` in order, none skipped
and none repeated. -/
def Obligations.MixedExtractionTakesTheStreamInOrder : Prop :=
  ∀ (s : State) (r : RuleTable) (G0 : Nat → Bool) (is : List Instr), Running s r G0 →
    (∀ i ∈ is, i = .nextBit ∨ i = .nextByte) →
    ∃ (t : State) (data : List Byte) (k : Nat), runInstrs is s = .next t ∧ data.length = is.length ∧
      t.responses = s.responses ++ data.map (fun d => ⟨.ok, d⟩) ∧
      k = (is.map fun i => if i = .nextByte then 8 else 1).sum ∧
      (List.zipWith bitsTaken is data).flatten = (List.range k).map (fun n => streamBit s.cfg r G0 (n + 1)) ∧
      t.gen = s.gen + k ∧ Running t r (generation s.cfg r G0 k)

/-- R153: the micro-step form of `NEXT_BYTE` gives the state and the response of `exec`; before the eighth micro-step it
is busy, has answered nothing, and accepts no command. -/
def Obligations.MicroStepFormRefinesNextByte : Prop :=
  ∀ (m : MicroState) (r : RuleTable) (R : Nat → Bool), m.busy = false → Running m.engine r R →
    ∃ m0, microAccept .nextByte m = .next m0 ∧ m0 = ⟨m.engine, 0, 0, true⟩ ∧
      (∀ k < 8, ∃ mk, microRun k m0 = .next mk ∧ mk.busy = true ∧ mk.bitCnt = k ∧
        mk.engine.responses = m.engine.responses ∧ ∀ i, microAccept i mk = .next mk) ∧
      ∃ m8, microRun 8 m0 = .next m8 ∧ m8.busy = false ∧ m8.bitCnt = 8 ∧ exec .nextByte m.engine = .next m8.engine

/-! ### The ports -/

/-- R82: over any edges without reset, from no command outstanding, the engine does exactly the accepted commands in
order, and the responses delivered are one for each in order, but for one not yet delivered while a command is
outstanding. That the whole effect of an outstanding command is in the engine before its response is the model's choice
(log 13). -/
def Obligations.PortPairsCommandsAndResponses : Prop :=
  ∀ (lat : BitVec 3 → Nat) (p q : PortState) (is : List PortIn), p.job = .idle → (∀ i ∈ is, i.rst = false) →
    portRun lat p is = .next q →
    runWords (acceptedWords lat p is) p.engine = .next q.engine ∧
    ∃ new, delivered q = p.engine.responses ++ new ∧
      new.length + (if q.job = .idle then 0 else 1) = (acceptedWords lat p is).length

/-- R243: an accepted command's response is presented after the latency, whatever it is, and delivered as soon as the host
takes it. That the engine holds the effect and the response from the acceptance on is the model's choice (log 13). -/
def Obligations.PortAnswersAnAcceptedCommand : Prop :=
  ∀ (lat : BitVec 3 → Nat) (p : PortState) (i : PortIn) (is : List PortIn), Inv p.engine → p.job = .idle →
    i.rst = false → i.cmdValid = true → is.length = lat i.cmdOp - 1 → (∀ j ∈ is, j.rst = false) →
    ∃ (q : PortState) (x : Response), portRun lat p (i :: is) = .next q ∧
      q.engine.responses = p.engine.responses ++ [x] ∧ portOut q false = ⟨false, some (responseWord x)⟩ ∧
      ∀ j : PortIn, j.rst = false → j.rspReady = true →
        ∃ q', portTick lat q j = .next q' ∧ q'.job = .idle ∧ delivered q' = p.engine.responses ++ [x]

/-- R82: while a response is presented and not taken nothing changes; while reset is asserted neither `cmd_ready` nor
`rsp_valid` is 1; while a command is outstanding none is accepted. -/
def Obligations.PortHoldsAnUntakenResponse : Prop :=
  ∀ (lat : BitVec 3 → Nat) (p : PortState) (i : PortIn),
    (p.job = .outstanding 0 → i.rst = false → i.rspReady = false → portTick lat p i = .next p) ∧
    portOut p true = ⟨false, none⟩ ∧
    (p.job ≠ .idle → acceptedWord p i = none)

/-- R180 at the ports: from any state, a reset edge and then edges without reset make a run. Its commands are those accepted,
its responses those delivered since the reset; it is over exactly where no command is outstanding; the engine is the one its
answered commands lead to from reset, and, where it is not over, the one its unanswered command leads to from there; and a
run that is not over has no observation (log 16). That the whole effect of an unanswered command is in the engine before its
response is the model's choice (log 13), and so is that the responses before the reset stay in the record (log 6). -/
def Obligations.PortRunsAreRuns : Prop :=
  ∀ (lat : BitVec 3 → Nat) (p : PortState) (r : Run) (i : PortIn) (is : List PortIn), i.rst = true →
    (∀ j ∈ is, j.rst = false) →
    ∃ (q : PortState) (run : Run) (t : State), recordEdges lat p r (i :: is) = .next (q, run) ∧
      runCommands run = acceptedWords lat p (i :: is) ∧ delivered q = delivered p ++ runResponses run ∧
      (runOver run = true ↔ q.job = .idle) ∧
      runWords (run.exchanges.map Exchange.word)
        { State.resetOf p.engine.cfg with inputs := p.engine.inputs, responses := delivered p } = .next t ∧
      (match run.unanswered with
        | none => q.engine = t
        | some w => exec (decode w) t = .next q.engine ∧ observation run = none)
end

