-- ==== Sys2Proof/Laws/Decode.lean ====
section
/-! SUPPORT. The fields of a command word put together from fields (30_encoding.md R83). -/

namespace Sys2Proof

theorem getLsbD_cmdWord (op : BitVec 3) (data : BitVec 32) (i : Nat) :
    (cmdWord op data).getLsbD i = if i < 32 then data.getLsbD i else op.getLsbD (i - 32) := by
  have h : (cmdWord op data).getLsbD i = (op ++ data).getLsbD i := rfl
  rw [h, BitVec.getLsbD_append]

@[simp] theorem opField_cmdWord (op : BitVec 3) (data : BitVec 32) : opField (cmdWord op data) = op := by
  refine BitVec.eq_of_getLsbD_eq fun i hi => ?_
  simp [opField, getLsbD_cmdWord, hi]

@[simp] theorem dataField_cmdWord (op : BitVec 3) (data : BitVec 32) : dataField (cmdWord op data) = data := by
  refine BitVec.eq_of_getLsbD_eq fun i hi => ?_
  simp [dataField, getLsbD_cmdWord, hi]

@[simp] theorem byteField_cmdWord (op : BitVec 3) (data : BitVec 32) :
    byteField (cmdWord op data) = data.setWidth 8 := by
  refine BitVec.eq_of_getLsbD_eq fun i hi => ?_
  have : i < 32 := by omega
  simp [byteField, getLsbD_cmdWord, hi, this]

/-- A command word is its two fields. -/
theorem cmdWord_fields (w : CmdWord) : cmdWord (opField w) (dataField w) = w := by
  refine BitVec.eq_of_getLsbD_eq fun i hi => ?_
  rw [getLsbD_cmdWord]
  by_cases h : i < 32
  · simp [dataField, h]
  · have h' : i - 32 < 3 := by omega
    have : 32 + (i - 32) = i := by omega
    simp [opField, h, h', this]

/-- The seed byte is the low byte of the operand bits. -/
theorem byteField_eq (w : CmdWord) : byteField w = (dataField w).setWidth 8 := by
  rw [← cmdWord_fields w, byteField_cmdWord, dataField_cmdWord]

end Sys2Proof
end

