-- ==== Sys2Proof/Laws/Index.lean ====
section
/-! SUPPORT. Facts of a well-formed configuration and of the circular index (00_scope.md R7, R8; 20_memory.md R56). -/

namespace Sys2Proof

theorem Config.eight_le_N (c : Config) : 8 ≤ c.N :=
  Nat.pow_le_pow_right (n := 2) (by decide) c.three_le

theorem Config.N_eq_eight_mul_seedBytes (c : Config) : c.N = 8 * c.seedBytes := by
  obtain ⟨k, hk⟩ := Nat.exists_eq_add_of_le c.three_le
  simp only [Config.seedBytes, Config.N, hk, Nat.pow_add]
  omega

theorem Config.seedBytes_pos (c : Config) : 0 < c.seedBytes := by
  have h := c.eight_le_N
  have h' := c.N_eq_eight_mul_seedBytes
  omega

theorem Config.TAP_lt_N (c : Config) : c.TAP < c.N := by
  have := c.eight_le_N
  unfold Config.TAP
  omega

theorem Config.and_MASK (c : Config) (x : Nat) : x &&& c.MASK = x % c.N :=
  Nat.and_two_pow_sub_one_eq_mod x c.n

namespace Machine

theorem wrap_eq_mod (c : Config) (i : Nat) (d : Offset) : wrap c i d = d.addTo (i + c.N) % c.N :=
  c.and_MASK _

theorem wrap_lt (c : Config) (i : Nat) (d : Offset) : wrap c i d < c.N := by
  rw [wrap_eq_mod]
  exact Nat.mod_lt _ (by have := c.eight_le_N; omega)

theorem wrap_self (c : Config) {i : Nat} (h : i < c.N) : wrap c i .self = i := by
  rw [wrap_eq_mod]
  simp [Offset.addTo, Nat.mod_eq_of_lt h]

/-- The neighbourhood depends on the cells of the ring only. -/
theorem nbh_congr (c : Config) {R R' : Nat → Bool} (h : ∀ i < c.N, R i = R' i) (i : Nat) : nbh c R i = nbh c R' i := by
  simp only [nbh, h _ (wrap_lt c i _)]

/-- A generation depends on the cells of the ring only. -/
theorem generationStep_congr (c : Config) (r : RuleTable) {R R' : Nat → Bool} (h : ∀ i < c.N, R i = R' i) (i : Nat) :
    generationStep c r R i = generationStep c r R' i := by
  simp only [generationStep, nbh_congr c h]

end Machine
end Sys2Proof
end

