-- ==== Sys2Proof/Laws/Ring.lean ====
section
/-! SUPPORT. The laws of the ring as memory: a read after a write, the canonical form kept by every operation, the
snapshot (20_memory.md R50, R54, R55). -/

namespace Sys2Proof.Machine

theorem Ring.read_write (m : Ring) (i j : Nat) (v : Bool) :
    (m.write i v).read j = if j = i then some v else m.read j := by
  induction m with
  | nil => simp only [Ring.write, Ring.read, eq_comm]
  | cons x m ih =>
    obtain ⟨a, w⟩ := x
    simp only [Ring.write]
    split
    · simp only [Ring.read, eq_comm (a := i)]
    · split
      · subst i
        by_cases h : j = a <;> simp [Ring.read, h, eq_comm (a := a)]
      · by_cases h : a = j
        · have : j ≠ i := by omega
          simp [Ring.read, h, this]
        · simp [Ring.read, h, ih]

theorem Ring.mem_write {m : Ring} {i : Nat} {v : Bool} {x : Nat × Bool} (h : x ∈ m.write i v) : x = (i, v) ∨ x ∈ m := by
  induction m with
  | nil => simpa [Ring.write] using h
  | cons y m ih =>
    obtain ⟨a, w⟩ := y
    simp only [Ring.write] at h
    split at h
    · simpa using h
    · split at h
      · rcases List.mem_cons.mp h with h | h
        · exact .inl h
        · exact .inr (List.mem_cons_of_mem _ h)
      · rcases List.mem_cons.mp h with h | h
        · exact .inr (h ▸ List.mem_cons_self)
        · exact (ih h).imp_right (List.mem_cons_of_mem _)

/-- Writing a cell of the ring keeps the canonical form. -/
theorem Ring.write_wellFormed {N : Nat} {m : Ring} (hm : m.WellFormed N) {i : Nat} (hi : i < N) (v : Bool) :
    (m.write i v).WellFormed N := by
  obtain ⟨hs, hb⟩ := hm
  refine ⟨?_, fun x hx => (Ring.mem_write hx).elim (fun h => h ▸ hi) (hb x)⟩
  clear hb
  induction m with
  | nil => simp [Ring.write]
  | cons y m ih =>
    obtain ⟨a, w⟩ := y
    obtain ⟨ha, hs⟩ := List.pairwise_cons.mp hs
    simp only [Ring.write]
    split
    · refine List.pairwise_cons.mpr ⟨fun x hx => ?_, List.pairwise_cons.mpr ⟨ha, hs⟩⟩
      rcases List.mem_cons.mp hx with rfl | hx
      · assumption
      · exact Nat.lt_trans ‹i < a› (ha x hx)
    · split
      · subst i
        exact List.pairwise_cons.mpr ⟨ha, hs⟩
      · refine List.pairwise_cons.mpr ⟨fun x hx => ?_, ih hs⟩
        rcases Ring.mem_write hx with rfl | hx
        · show a < i
          omega
        · exact ha x hx

theorem Ring.mem_of_read {m : Ring} {i : Nat} {v : Bool} (h : m.read i = some v) : (i, v) ∈ m := by
  induction m with
  | nil => simp [Ring.read] at h
  | cons x m ih =>
    obtain ⟨a, w⟩ := x
    simp only [Ring.read] at h
    split at h
    · simp_all
    · exact List.mem_cons_of_mem _ (ih h)

theorem Ring.read_of_mem {m : Ring} (hs : m.Pairwise (fun x y => x.1 < y.1)) {i : Nat} {v : Bool} (h : (i, v) ∈ m) :
    m.read i = some v := by
  induction m with
  | nil => simp at h
  | cons x m ih =>
    obtain ⟨a, w⟩ := x
    obtain ⟨ha, hs⟩ := List.pairwise_cons.mp hs
    rcases List.mem_cons.mp h with h | h
    · simp_all [Ring.read]
    · have : a ≠ i := Nat.ne_of_lt (ha _ h)
      simp [Ring.read, this, ih hs h]

/-- No cell outside the ring holds a value. -/
theorem Ring.read_eq_none_of_le {N : Nat} {m : Ring} (hm : m.WellFormed N) {i : Nat} (hi : N ≤ i) : m.read i = none := by
  cases h : m.read i with
  | none => rfl
  | some v => exact absurd (hm.2 _ (Ring.mem_of_read h)) (by simpa using hi)

/-- Canonical rings that read the same are the same data. -/
theorem Ring.ext_read {m m' : Ring} (hm : m.Pairwise (fun x y => x.1 < y.1)) (hm' : m'.Pairwise (fun x y => x.1 < y.1))
    (h : ∀ i, m.read i = m'.read i) : m = m' := by
  have antisymm : ∀ a b : Nat × Bool, a.1 < b.1 → b.1 < a.1 → a = b := fun a b h₁ h₂ => absurd h₁ (Nat.lt_asymm h₂)
  have nodup : ∀ {l : Ring}, l.Pairwise (fun x y => x.1 < y.1) → l.Nodup := fun hl =>
    hl.imp fun {a b} hab hEq => by subst hEq; exact absurd hab (Nat.lt_irrefl _)
  refine List.Perm.eq_of_pairwise (le := fun x y => x.1 < y.1) (fun a b _ _ => antisymm a b) hm hm' ?_
  refine (List.perm_ext_iff_of_nodup (nodup hm) (nodup hm')).mpr fun x => ?_
  obtain ⟨i, v⟩ := x
  exact ⟨fun hx => Ring.mem_of_read ((h i).symm.trans (Ring.read_of_mem hm hx)),
    fun hx => Ring.mem_of_read ((h i).trans (Ring.read_of_mem hm' hx))⟩

theorem Ring.ofCells_wellFormed (N : Nat) (R : Nat → Bool) : (Ring.ofCells N R).WellFormed N := by
  refine ⟨?_, fun x hx => ?_⟩
  · exact List.pairwise_map.mpr List.pairwise_lt_range
  · obtain ⟨i, hi, rfl⟩ := List.mem_map.mp hx
    exact List.mem_range.mp hi

theorem Ring.read_ofCells (N : Nat) (R : Nat → Bool) (i : Nat) :
    (Ring.ofCells N R).read i = if i < N then some (R i) else none := by
  split
  · exact Ring.read_of_mem (Ring.ofCells_wellFormed N R).1 (List.mem_map.mpr ⟨i, List.mem_range.mpr ‹_›, rfl⟩)
  · exact Ring.read_eq_none_of_le (Ring.ofCells_wellFormed N R) (Nat.le_of_not_lt ‹_›)

/-- Bit `i` of the number of a canonical ring is its cell `i`. -/
theorem Ring.testBit_value {m : Ring} (hs : m.Pairwise (fun x y => x.1 < y.1)) (i : Nat) :
    (Ring.value m).testBit i = (m.read i).getD false := by
  induction m with
  | nil => simp [Ring.value, Ring.read]
  | cons x m ih =>
    obtain ⟨a, v⟩ := x
    obtain ⟨ha, hs⟩ := List.pairwise_cons.mp hs
    have hnone : Ring.read m a = none := by
      cases h : Ring.read m a with
      | none => rfl
      | some w => exact absurd (ha _ (Ring.mem_of_read h)) (Nat.lt_irrefl a)
    have ih := ih hs
    by_cases hai : a = i
    · subst hai
      cases v <;> simp [Ring.value, Ring.read, Nat.testBit_or, ih, hnone]
    · cases v <;> simp [Ring.value, Ring.read, Nat.testBit_or, ih, hai]

/-- Where the snapshot answers, the ring is canonical and every cell holds its bit. -/
theorem Ring.snapshot_eq_some {N : Nat} {m : Ring} {b : Nat} (h : Ring.snapshot N m = some b) :
    m.WellFormed N ∧ ∀ i < N, m.read i = some (b.testBit i) := by
  unfold Ring.snapshot at h
  split at h
  · rename_i hk
    obtain rfl := Option.some.inj h
    have hs : m.Pairwise (fun x y => x.1 < y.1) := List.pairwise_map.mp (hk ▸ List.pairwise_lt_range)
    refine ⟨⟨hs, fun x hx => List.mem_range.mp (hk ▸ List.mem_map_of_mem hx)⟩, fun i hi => ?_⟩
    obtain ⟨⟨j, v⟩, hx, rfl⟩ := List.mem_map.mp (hk ▸ List.mem_range.mpr hi : i ∈ m.map Prod.fst)
    rw [Ring.testBit_value hs, Ring.read_of_mem hs hx]
    rfl
  · cases h

/-- The snapshot of a canonical ring answers where every cell holds a value. -/
theorem Ring.snapshot_of_read {N : Nat} {m : Ring} (hm : m.WellFormed N) {R : Nat → Bool}
    (h : ∀ i < N, m.read i = some (R i)) : ∃ b, Ring.snapshot N m = some b ∧ ∀ i < N, b.testBit i = R i := by
  have hEq : m = Ring.ofCells N R := by
    refine Ring.ext_read hm.1 (Ring.ofCells_wellFormed N R).1 fun i => ?_
    rw [Ring.read_ofCells]
    split
    · exact h i ‹_›
    · exact Ring.read_eq_none_of_le hm (Nat.le_of_not_lt ‹_›)
  have hk : m.map Prod.fst = List.range N := by
    rw [hEq, Ring.ofCells, List.map_map]
    exact List.map_id _
  refine ⟨Ring.value m, if_pos hk, fun i hi => ?_⟩
  rw [Ring.testBit_value hm.1, h i hi]
  rfl

end Sys2Proof.Machine
end

