-- ==== Sys2Proof/Laws/State.lean ====
section
/-! SUPPORT. One lemma per field of State for each shared update: the response, fault entry, reset, and the host's next
command. -/

namespace Sys2Proof.Machine

@[simp] theorem respond_cfg (st : Status) (d : Byte) (s : State) : (respond st d s).cfg = s.cfg := rfl
@[simp] theorem respond_ring (st : Status) (d : Byte) (s : State) : (respond st d s).ring = s.ring := rfl
@[simp] theorem respond_rule (st : Status) (d : Byte) (s : State) : (respond st d s).rule = s.rule := rfl
@[simp] theorem respond_ruleValid (st : Status) (d : Byte) (s : State) : (respond st d s).ruleValid = s.ruleValid := rfl
@[simp] theorem respond_seedCnt (st : Status) (d : Byte) (s : State) : (respond st d s).seedCnt = s.seedCnt := rfl
@[simp] theorem respond_phase (st : Status) (d : Byte) (s : State) : (respond st d s).phase = s.phase := rfl
@[simp] theorem respond_err (st : Status) (d : Byte) (s : State) : (respond st d s).err = s.err := rfl
@[simp] theorem respond_gen (st : Status) (d : Byte) (s : State) : (respond st d s).gen = s.gen := rfl
@[simp] theorem respond_inputs (st : Status) (d : Byte) (s : State) : (respond st d s).inputs = s.inputs := rfl
@[simp] theorem respond_responses (st : Status) (d : Byte) (s : State) : (respond st d s).responses = s.responses ++ [⟨st, d⟩] := rfl

@[simp] theorem raise_cfg (e : Error) (s : State) : (raise e s).cfg = s.cfg := rfl
@[simp] theorem raise_ring (e : Error) (s : State) : (raise e s).ring = s.ring := rfl
@[simp] theorem raise_rule (e : Error) (s : State) : (raise e s).rule = s.rule := rfl
@[simp] theorem raise_ruleValid (e : Error) (s : State) : (raise e s).ruleValid = s.ruleValid := rfl
@[simp] theorem raise_seedCnt (e : Error) (s : State) : (raise e s).seedCnt = s.seedCnt := rfl
@[simp] theorem raise_phase (e : Error) (s : State) : (raise e s).phase = .failed := rfl
@[simp] theorem raise_err (e : Error) (s : State) : (raise e s).err = .error e := rfl
@[simp] theorem raise_gen (e : Error) (s : State) : (raise e s).gen = s.gen := rfl
@[simp] theorem raise_inputs (e : Error) (s : State) : (raise e s).inputs = s.inputs := rfl
@[simp] theorem raise_responses (e : Error) (s : State) : (raise e s).responses = s.responses ++ [⟨.error e, 0⟩] := rfl

@[simp] theorem resetEngine_cfg (s : State) : (resetEngine s).cfg = s.cfg := rfl
@[simp] theorem resetEngine_ring (s : State) : (resetEngine s).ring = [] := rfl
@[simp] theorem resetEngine_rule (s : State) : (resetEngine s).rule = none := rfl
@[simp] theorem resetEngine_ruleValid (s : State) : (resetEngine s).ruleValid = false := rfl
@[simp] theorem resetEngine_seedCnt (s : State) : (resetEngine s).seedCnt = 0 := rfl
@[simp] theorem resetEngine_phase (s : State) : (resetEngine s).phase = .cfg := rfl
@[simp] theorem resetEngine_err (s : State) : (resetEngine s).err = .ok := rfl
@[simp] theorem resetEngine_gen (s : State) : (resetEngine s).gen = 0 := rfl
@[simp] theorem resetEngine_inputs (s : State) : (resetEngine s).inputs = s.inputs := rfl
@[simp] theorem resetEngine_responses (s : State) : (resetEngine s).responses = s.responses := rfl

@[simp] theorem presentWord_cfg (s : State) (w : CmdWord) : (presentWord s w).cfg = s.cfg := rfl
@[simp] theorem presentWord_ring (s : State) (w : CmdWord) : (presentWord s w).ring = s.ring := rfl
@[simp] theorem presentWord_rule (s : State) (w : CmdWord) : (presentWord s w).rule = s.rule := rfl
@[simp] theorem presentWord_ruleValid (s : State) (w : CmdWord) : (presentWord s w).ruleValid = s.ruleValid := rfl
@[simp] theorem presentWord_seedCnt (s : State) (w : CmdWord) : (presentWord s w).seedCnt = s.seedCnt := rfl
@[simp] theorem presentWord_phase (s : State) (w : CmdWord) : (presentWord s w).phase = s.phase := rfl
@[simp] theorem presentWord_err (s : State) (w : CmdWord) : (presentWord s w).err = s.err := rfl
@[simp] theorem presentWord_gen (s : State) (w : CmdWord) : (presentWord s w).gen = s.gen := rfl
@[simp] theorem presentWord_inputs (s : State) (w : CmdWord) : (presentWord s w).inputs = .command w :: s.inputs := rfl
@[simp] theorem presentWord_responses (s : State) (w : CmdWord) : (presentWord s w).responses = s.responses := rfl

end Sys2Proof.Machine
end

