-- ==== Sys2Proof/Laws/Ops.lean ====
section
/-! SUPPORT. One spec lemma per shared operation: when it answers, and everything it then says. -/

namespace Sys2Proof.Machine

/-! ### Sequencing -/

@[simp] theorem andThen_next {α β : Type} (a : α) (f : α → Host.Outcome β Fault Refusal) :
    andThen (.next a) f = f a := rfl

theorem andThen_eq_next {α β : Type} {o : Host.Outcome α Fault Refusal} {f : α → Host.Outcome β Fault Refusal} {b : β}
    (h : andThen o f = .next b) : ∃ a, o = .next a ∧ f a = .next b := by
  cases o with
  | next a => exact ⟨a, rfl, h⟩
  | fault r => cases h
  | refused r => cases h

/-! ### The common checks (30_encoding.md R95) -/

theorem whenLegal_failed {p : Option Phase} {s : State} {body : State → Host.Outcome State Fault Refusal}
    (h : s.phase = .failed) : whenLegal p s body = .next (respond s.err 0 s) := if_pos h

theorem whenLegal_legal {p : Phase} {s : State} {body : State → Host.Outcome State Fault Refusal}
    (hf : p ≠ .failed) (h : s.phase = p) : whenLegal (some p) s body = body s := by
  subst h
  simp [whenLegal, hf]

theorem whenLegal_illegal {p : Option Phase} {s : State} {body : State → Host.Outcome State Fault Refusal}
    (hf : s.phase ≠ .failed) (h : p ≠ some s.phase) : whenLegal p s body = .next (raise .protocolViolation s) := by
  simp [whenLegal, hf, h]

/-- Everything `whenLegal` can answer with a next state. -/
theorem whenLegal_cases {p : Option Phase} {s t : State} {body : State → Host.Outcome State Fault Refusal}
    (h : whenLegal p s body = .next t) :
    (s.phase = .failed ∧ t = respond s.err 0 s) ∨
    (s.phase ≠ .failed ∧ p = some s.phase ∧ body s = .next t) ∨
    (s.phase ≠ .failed ∧ p ≠ some s.phase ∧ t = raise .protocolViolation s) := by
  unfold whenLegal at h
  split at h
  · exact .inl ⟨‹_›, (Host.Outcome.next.inj h).symm⟩
  · split at h
    · exact .inr (.inl ⟨‹_›, ‹_›, h⟩)
    · exact .inr (.inr ⟨‹_›, ‹_›, (Host.Outcome.next.inj h).symm⟩)

/-! ### The ring -/

theorem ringWrite_cases {i : Nat} {v : Bool} {s t : State} (h : ringWrite i v s = .next t) :
    i < s.cfg.N ∧ t = { s with ring := s.ring.write i v } := by
  unfold ringWrite at h
  split at h
  · exact ⟨‹_›, (Host.Outcome.next.inj h).symm⟩
  · cases h

theorem ringRead_of_read {s : State} {i : Nat} {v : Bool} (hi : i < s.cfg.N) (h : s.ring.read i = some v) :
    ringRead s i = .next v := by
  simp [ringRead, hi, h]

theorem ringRead_cases {s : State} {i : Nat} {v : Bool} (h : ringRead s i = .next v) : s.ring.read i = some v := by
  unfold ringRead at h
  split at h
  · split at h
    · cases h
      assumption
    · cases h
  · cases h

/-- Writing the bits of a seed byte changes the ring only, keeps its canonical form, and sets exactly the cells named
(40_construction.md R112). -/
theorem writeSeedBits_cases {b : Byte} {left j : Nat} {s t : State} (h : writeSeedBits b s left j = .next t) :
    t = { s with ring := t.ring } ∧ (s.ring.WellFormed s.cfg.N → t.ring.WellFormed s.cfg.N) ∧
    ∀ i, t.ring.read i =
      if 8 * s.seedCnt + j ≤ i ∧ i < 8 * s.seedCnt + j + left then some (b.getLsbD (i - 8 * s.seedCnt))
      else s.ring.read i := by
  induction left generalizing s j with
  | zero =>
    obtain rfl := Host.Outcome.next.inj h
    refine ⟨rfl, id, fun i => ?_⟩
    rw [if_neg (by omega)]
  | succ left ih =>
    obtain ⟨u, hu, h⟩ := andThen_eq_next h
    obtain ⟨hi, rfl⟩ := ringWrite_cases hu
    obtain ⟨ht, hwf, hread⟩ := ih h
    refine ⟨by rw [ht], fun hm => hwf (Ring.write_wellFormed hm hi _), fun i => ?_⟩
    have hc : seedCell s.seedCnt j = 8 * s.seedCnt + j := rfl
    rw [hread, Ring.read_write]
    by_cases h₁ : i = seedCell s.seedCnt j
    · subst h₁
      rw [if_neg (by simp only; omega), if_pos rfl, if_pos (by omega), hc, Nat.add_sub_cancel_left]
    · by_cases h₂ : 8 * s.seedCnt + j ≤ i ∧ i < 8 * s.seedCnt + j + (left + 1)
      · rw [if_pos (by simp only; omega), if_pos h₂]
      · rw [if_neg (by simp only; omega), if_neg h₁, if_neg h₂]

/-- The bits of a seed byte can be written where their cells exist. -/
theorem writeSeedBits_answers {b : Byte} {left j : Nat} {s : State} (h : 8 * s.seedCnt + j + left ≤ s.cfg.N) :
    ∃ t, writeSeedBits b s left j = .next t := by
  induction left generalizing s j with
  | zero => exact ⟨s, rfl⟩
  | succ left ih =>
    have hi : seedCell s.seedCnt j < s.cfg.N := by
      simp only [seedCell]
      omega
    simp only [writeSeedBits, ringWrite, if_pos hi, andThen_next]
    exact ih (by simpa using by omega)

/-! ### The step and the tap -/

theorem Ring.ofCells_congr {N : Nat} {R R' : Nat → Bool} (h : ∀ i < N, R i = R' i) :
    Ring.ofCells N R = Ring.ofCells N R' :=
  List.map_congr_left fun i hi => by rw [h i (List.mem_range.mp hi)]

/-- The state after one step from a ring holding `R` under the rule table `r` (41_ring_update.md R133). -/
def stepped (r : RuleTable) (R : Nat → Bool) (s : State) : State :=
  { s with ring := Ring.ofCells s.cfg.N (generationStep s.cfg r R), gen := s.gen + 1 }

theorem ringStep_of_running {s : State} {r : RuleTable} {R : Nat → Bool} (h : Running s r R) :
    ringStep s = .next (stepped r R s) := by
  obtain ⟨b, hb, hR⟩ := Ring.snapshot_of_read h.wellFormed h.holds
  simp only [ringStep, h.rule, hb, stepped]
  rw [Ring.ofCells_congr fun i _ => generationStep_congr s.cfg r hR i]

/-- A step answers only where the rule and every cell hold a value, and makes the next generation. -/
theorem ringStep_cases {s t : State} (h : ringStep s = .next t) :
    ∃ r R, s.rule = some r ∧ s.ring.WellFormed s.cfg.N ∧ HoldsRing s R ∧ t = stepped r R s := by
  unfold ringStep at h
  split at h
  · cases h
  · split at h
    · cases h
    · rename_i r hr _ b hb
      obtain ⟨hwf, hread⟩ := Ring.snapshot_eq_some hb
      exact ⟨r, b.testBit, hr, hwf, hread, (Host.Outcome.next.inj h).symm⟩

theorem stepped_holds (r : RuleTable) (R : Nat → Bool) (s : State) :
    HoldsRing (stepped r R s) (generationStep s.cfg r R) := fun i hi => by
  simp only [stepped, Ring.read_ofCells]
  exact if_pos hi

theorem Running.stepped {s : State} {r : RuleTable} {R : Nat → Bool} (h : Running s r R) :
    Running (stepped r R s) r (generationStep s.cfg r R) :=
  ⟨h.phase, h.rule, Ring.ofCells_wellFormed _ _, stepped_holds r R s⟩

theorem ringRead_stepped (r : RuleTable) (R : Nat → Bool) (s : State) :
    ringRead (stepped r R s) s.cfg.TAP = .next (generationStep s.cfg r R s.cfg.TAP) :=
  ringRead_of_read s.cfg.TAP_lt_N (stepped_holds r R s _ s.cfg.TAP_lt_N)

/-- `next_bit()` from a running state: one generation, and the tap of the new ring (42_extraction.md R151). -/
theorem stepAndTap_of_running {s : State} {r : RuleTable} {R : Nat → Bool} (h : Running s r R) :
    stepAndTap s = .next (stepped r R s, generationStep s.cfg r R s.cfg.TAP) := by
  unfold stepAndTap
  rw [ringStep_of_running h, andThen_next]
  show andThen (ringRead (stepped r R s) s.cfg.TAP) _ = _
  rw [ringRead_stepped, andThen_next]

theorem stepAndTap_cases {s t : State} {v : Bool} (h : stepAndTap s = .next (t, v)) :
    ∃ r R, s.rule = some r ∧ s.ring.WellFormed s.cfg.N ∧ HoldsRing s R ∧ t = stepped r R s ∧
      v = generationStep s.cfg r R s.cfg.TAP := by
  obtain ⟨u, hu, h⟩ := andThen_eq_next h
  obtain ⟨r, R, hr, hwf, hR, rfl⟩ := ringStep_cases hu
  have h : andThen (ringRead (stepped r R s) s.cfg.TAP) (fun v => .next (stepped r R s, v)) = .next (t, v) := h
  rw [ringRead_stepped, andThen_next] at h
  injection h with h
  injection h with h₁ h₂
  exact ⟨r, R, hr, hwf, hR, h₁.symm, h₂.symm⟩

theorem generation_succ' (c : Config) (r : RuleTable) (R : Nat → Bool) (t : Nat) :
    generation c r (generationStep c r R) t = generation c r R (t + 1) := by
  induction t with
  | zero => rfl
  | succ t ih => exact congrArg (generationStep c r) ih

/-- `left` steps from a running state reach generation `left`; `ACC` gathers their taps (42_extraction.md R152). -/
theorem gatherBits_of_running {s : State} {r : RuleTable} {R : Nat → Bool} (h : Running s r R) (acc : Byte)
    (left j : Nat) :
    ∃ t, gatherBits s acc left j =
        .next (t, (List.range left).foldl (fun a k => packBit a (j + k) (streamBit s.cfg r R (k + 1))) acc) ∧
      t = { s with ring := t.ring, gen := s.gen + left } ∧ Running t r (generation s.cfg r R left) := by
  induction left generalizing s R acc j with
  | zero => exact ⟨s, rfl, rfl, h⟩
  | succ left ih =>
    obtain ⟨t, hg, ht, hrun⟩ := ih h.stepped (packBit acc j (generationStep s.cfg r R s.cfg.TAP)) (j + 1)
    refine ⟨t, ?_, ?_, ?_⟩
    · simp only [gatherBits, stepAndTap_of_running h, andThen_next]
      rw [hg]
      refine congrArg (fun b => Host.Outcome.next (t, b)) ?_
      rw [List.range_succ_eq_map, List.foldl_cons, List.foldl_map]
      simp only [streamBit, Nat.add_zero, Nat.add_right_comm j, Nat.add_assoc j]
      have hc : (stepped r R s).cfg = s.cfg := rfl
      simp only [hc, generation_succ']
      rfl
    · rw [ht]
      simp only [Machine.stepped, State.mk.injEq, and_true, true_and]
      omega
    · rw [← generation_succ']
      exact hrun

/-- Gathering bits changes the ring and `GEN` only, and keeps the canonical form and the cells that hold a value. -/
theorem gatherBits_cases {s t : State} {acc b : Byte} {left j : Nat} (h : gatherBits s acc left j = .next (t, b)) :
    t = { s with ring := t.ring, gen := s.gen + left } ∧
    (s.ring.WellFormed s.cfg.N → t.ring.WellFormed s.cfg.N) ∧
    ((∀ i < s.cfg.N, (s.ring.read i).isSome) → ∀ i < s.cfg.N, (t.ring.read i).isSome) := by
  induction left generalizing s acc j with
  | zero =>
    injection h with h
    injection h with h₁ h₂
    subst h₁
    exact ⟨rfl, id, id⟩
  | succ left ih =>
    obtain ⟨⟨u, v⟩, hu, h⟩ := andThen_eq_next h
    obtain ⟨r, R, _, _, _, rfl, _⟩ := stepAndTap_cases hu
    obtain ⟨ht, hwf, hsome⟩ := ih h
    refine ⟨?_, fun _ => hwf (Ring.ofCells_wellFormed _ _), fun _ => hsome fun i hi => ?_⟩
    · rw [ht]
      simp only [Machine.stepped, State.mk.injEq, and_true, true_and]
      omega
    · rw [stepped_holds r R s i hi]
      rfl

/-! ### Packing -/

/-- Bit `i` of `ACC` after packing one bit at place `j` (42_extraction.md R157). -/
theorem getLsbD_packBit (acc : Byte) {j : Nat} (t : Bool) (i : Nat) :
    (packBit acc j t).getLsbD i = (acc.getLsbD i || (decide (i < 8) && decide (i = j) && t)) := by
  by_cases hi : i < 8
  · by_cases hj : i < j
    · have : i ≠ j := by omega
      simp [packBit, BitVec.getLsbD_shiftLeft, hj, this]
    · by_cases hij : i = j
      · subst hij
        simp [packBit, hi]
      · have : i - j ≠ 0 := by omega
        simp [packBit, BitVec.getLsbD_shiftLeft, hij, this]
  · simp [packBit, BitVec.getLsbD_of_ge _ i (Nat.le_of_not_lt hi), hi]

/-- Bit `i` of a byte packed from `k` bits, the first in bit 0 (42_extraction.md R152, R157). -/
theorem getLsbD_packed (f : Nat → Bool) (k i : Nat) :
    ((List.range k).foldl (fun a n => packBit a (0 + n) (f n)) 0).getLsbD i = (decide (i < 8) && decide (i < k) && f i) := by
  induction k with
  | zero => simp
  | succ k ih =>
    rw [List.range_succ, List.foldl_append, List.foldl_cons, List.foldl_nil, getLsbD_packBit, ih]
    rcases Nat.lt_trichotomy i k with hk | rfl | hk
    · simp [hk, Nat.lt_succ_of_lt hk, Nat.ne_of_lt hk]
    · simp
    · simp [Nat.lt_asymm hk, Nat.ne_of_gt hk, show ¬i < k + 1 by omega]

end Sys2Proof.Machine
end

