-- ==== Sys2Proof/Laws/Exec.lean ====
section
/-! SUPPORT. Everything a command can do, once for all commands: `ExecCases` lists the effects by their rules, and every
next state of `exec` is one of them. -/

namespace Sys2Proof.Machine

/-- The effects a command can have, errors first (60_exceptions.md R192, R193, R202, R204; 40_construction.md R111 to
R113; 42_extraction.md R151, R152). -/
inductive ExecCases (i : Instr) (s : State) : State → Prop where
  /-- In `FAILED`: the recorded error, nothing else. -/
  | failed (h : s.phase = .failed) : ExecCases i s (respond s.err 0 s)
  /-- A reserved opcode, or a command illegal in this phase. -/
  | illegal (h : s.phase ≠ .failed) (hl : legalPhase i ≠ some s.phase) : ExecCases i s (raise .protocolViolation s)
  /-- A seed byte beyond the `N/8`-th. -/
  | seedFull (b : Byte) (hi : i = .seedByte b) (h : s.phase = .cfg) (hc : s.seedCnt = s.cfg.seedBytes) :
      ExecCases i s (raise .protocolViolation s)
  /-- `START` without a rule. -/
  | noRule (hi : i = .start) (h : s.phase = .cfg) (hv : s.ruleValid = false) : ExecCases i s (raise .protocolViolation s)
  /-- `START` with fewer than `N/8` seed bytes. -/
  | seedShort (hi : i = .start) (h : s.phase = .cfg) (hv : s.ruleValid = true) (hc : s.seedCnt < s.cfg.seedBytes) :
      ExecCases i s (raise .seedTooShort s)
  | setRule (r : RuleTable) (hi : i = .setRule r) (h : s.phase = .cfg) :
      ExecCases i s (respond .ok 0 { s with rule := some r, ruleValid := true })
  | seedByte (b : Byte) (u : State) (hi : i = .seedByte b) (h : s.phase = .cfg) (hc : s.seedCnt ≠ s.cfg.seedBytes)
      (hu : writeSeedBits b s 8 0 = .next u) : ExecCases i s (respond .ok 0 { u with seedCnt := u.seedCnt + 1 })
  | start (hi : i = .start) (h : s.phase = .cfg) (hv : s.ruleValid = true) (hc : s.cfg.seedBytes ≤ s.seedCnt) :
      ExecCases i s (respond .ok 0 { s with phase := .run, gen := 0 })
  | nextBit (u : State) (v : Bool) (hi : i = .nextBit) (h : s.phase = .run) (hu : stepAndTap s = .next (u, v)) :
      ExecCases i s (respond .ok ((BitVec.ofBool v).setWidth 8) u)
  | nextByte (u : State) (b : Byte) (hi : i = .nextByte) (h : s.phase = .run)
      (hu : gatherBits s 0 Config.BITS_PER_BYTE 0 = .next (u, b)) : ExecCases i s (respond .ok b u)

/-- Every command stands behind the common checks, with its own legal phase (30_encoding.md R94, R95). -/
theorem exec_whenLegal (i : Instr) : ∃ body, ∀ s, exec i s = whenLegal (legalPhase i) s body := by
  cases i <;> exact ⟨_, fun _ => rfl⟩

/-- A command past the common checks has the effect its own rule gives. -/
theorem execCases_of_legal {i : Instr} {s t : State} (hl : legalPhase i = some s.phase) (h : exec i s = .next t) :
    ExecCases i s t := by
  cases i with
  | setRule r =>
    have hp : s.phase = .cfg := (Option.some.inj hl).symm
    rw [exec, execSetRule, whenLegal_legal (by decide) hp] at h
    cases h
    exact .setRule r rfl hp
  | seedByte b =>
    have hp : s.phase = .cfg := (Option.some.inj hl).symm
    rw [exec, execSeedByte, whenLegal_legal (by decide) hp] at h
    split at h
    · rename_i hc
      cases h
      exact .seedFull b rfl hp (by simpa [Machine.seedFull] using hc)
    · rename_i hc
      obtain ⟨u, hu, h⟩ := andThen_eq_next h
      cases h
      exact .seedByte b u rfl hp (by simpa [Machine.seedFull] using hc) hu
  | start =>
    have hp : s.phase = .cfg := (Option.some.inj hl).symm
    rw [exec, execStart, whenLegal_legal (by decide) hp] at h
    split at h
    · rename_i hv
      cases h
      exact .noRule rfl hp hv
    · rename_i hv
      split at h
      · rename_i hc
        cases h
        exact .seedShort rfl hp (by simpa using hv) (by simpa [Machine.seedShort] using hc)
      · rename_i hc
        cases h
        exact .start rfl hp (by simpa using hv) (by simpa [Machine.seedShort] using hc)
  | nextBit =>
    have hp : s.phase = .run := (Option.some.inj hl).symm
    rw [exec, execNextBit, whenLegal_legal (by decide) hp] at h
    obtain ⟨⟨u, v⟩, hu, h⟩ := andThen_eq_next h
    cases h
    exact .nextBit u v rfl hp hu
  | nextByte =>
    have hp : s.phase = .run := (Option.some.inj hl).symm
    rw [exec, execNextByte, whenLegal_legal (by decide) hp] at h
    obtain ⟨⟨u, b⟩, hu, h⟩ := andThen_eq_next h
    cases h
    exact .nextByte u b rfl hp hu
  | reserved0 => cases hl
  | reserved6 => cases hl
  | reserved7 => cases hl

/-- Every next state of a command is one of the effects above. -/
theorem exec_cases {i : Instr} {s t : State} (h : exec i s = .next t) : ExecCases i s t := by
  obtain ⟨body, hb⟩ := exec_whenLegal i
  obtain ⟨hp, rfl⟩ | ⟨_, hl, _⟩ | ⟨hp, hl, rfl⟩ := whenLegal_cases (hb s ▸ h)
  · exact .failed hp
  · exact execCases_of_legal hl h
  · exact .illegal hp hl

end Sys2Proof.Machine
end

