-- ==== Sys2Proof/Laws/Inputs.lean ====
section
/-! SUPPORT. A command does not look at what the host will do next: executing it commutes with replacing `State.inputs`
(20_memory.md R63). -/

namespace Sys2Proof.Machine

/-- The state with the host's further acts replaced. -/
def withInputs (es : List HostEvent) (s : State) : State := { s with inputs := es }

theorem andThen_assoc {α β γ : Type} (o : Host.Outcome α Fault Refusal) (f : α → Host.Outcome β Fault Refusal)
    (g : β → Host.Outcome γ Fault Refusal) : andThen (andThen o f) g = andThen o fun a => andThen (f a) g := by
  cases o <;> rfl

theorem whenLegal_withInputs {p : Option Phase} {body : State → Host.Outcome State Fault Refusal} (es : List HostEvent)
    (hb : ∀ s, body (withInputs es s) = andThen (body s) fun t => .next (withInputs es t)) (s : State) :
    whenLegal p (withInputs es s) body = andThen (whenLegal p s body) fun t => .next (withInputs es t) := by
  by_cases hf : s.phase = .failed
  · rw [whenLegal_failed hf, whenLegal_failed (s := withInputs es s) hf]
    rfl
  · by_cases hl : p = some s.phase
    · subst hl
      rw [whenLegal_legal hf rfl, whenLegal_legal (s := withInputs es s) hf rfl]
      exact hb s
    · rw [whenLegal_illegal hf hl, whenLegal_illegal (s := withInputs es s) hf hl]
      rfl

theorem writeSeedBits_withInputs (es : List HostEvent) (b : Byte) (s : State) (left j : Nat) :
    writeSeedBits b (withInputs es s) left j =
      andThen (writeSeedBits b s left j) fun t => .next (withInputs es t) := by
  induction left generalizing s j with
  | zero => rfl
  | succ left ih =>
    by_cases h : seedCell s.seedCnt j < s.cfg.N
    · simp only [writeSeedBits, ringWrite]
      rw [if_pos h, if_pos (show seedCell (withInputs es s).seedCnt j < (withInputs es s).cfg.N from h)]
      exact ih { s with ring := s.ring.write (seedCell s.seedCnt j) (b.getLsbD j) } (j + 1)
    · simp only [writeSeedBits, ringWrite]
      rw [if_neg h, if_neg (show ¬seedCell (withInputs es s).seedCnt j < (withInputs es s).cfg.N from h)]
      rfl

theorem ringStep_withInputs (es : List HostEvent) (s : State) :
    ringStep (withInputs es s) = andThen (ringStep s) fun t => .next (withInputs es t) := by
  simp only [ringStep, withInputs]
  cases s.rule with
  | none => rfl
  | some r => cases Ring.snapshot s.cfg.N s.ring <;> rfl

theorem stepAndTap_withInputs (es : List HostEvent) (s : State) :
    stepAndTap (withInputs es s) = andThen (stepAndTap s) fun p => .next (withInputs es p.1, p.2) := by
  simp only [stepAndTap, ringStep_withInputs, andThen_assoc, andThen_next]
  rfl

theorem gatherBits_withInputs (es : List HostEvent) (s : State) (acc : Byte) (left j : Nat) :
    gatherBits (withInputs es s) acc left j =
      andThen (gatherBits s acc left j) fun p => .next (withInputs es p.1, p.2) := by
  induction left generalizing s acc j with
  | zero => rfl
  | succ left ih =>
    simp only [gatherBits, stepAndTap_withInputs, andThen_assoc, andThen_next]
    exact congrArg (andThen (stepAndTap s)) (funext fun p => ih p.1 _ _)

/-- Executing a command commutes with replacing what the host will do next. -/
theorem exec_withInputs (es : List HostEvent) (i : Instr) (s : State) :
    exec i (withInputs es s) = andThen (exec i s) fun t => .next (withInputs es t) := by
  cases i with
  | setRule r =>
    simp only [exec, execSetRule]
    exact whenLegal_withInputs es (fun _ => rfl) s
  | seedByte b =>
    simp only [exec, execSeedByte]
    refine whenLegal_withInputs es (fun s => ?_) s
    by_cases hc : seedFull s = true
    · rw [if_pos hc, if_pos (show seedFull (withInputs es s) = true from hc)]
      rfl
    · rw [if_neg hc, if_neg (show ¬seedFull (withInputs es s) = true from hc), writeSeedBits_withInputs]
      simp only [andThen_assoc, andThen_next]
      rfl
  | start =>
    simp only [exec, execStart]
    refine whenLegal_withInputs es (fun s => ?_) s
    by_cases hv : s.ruleValid = false
    · rw [if_pos hv, if_pos (show (withInputs es s).ruleValid = false from hv)]
      rfl
    · rw [if_neg hv, if_neg (show ¬(withInputs es s).ruleValid = false from hv)]
      by_cases hc : seedShort s = true
      · rw [if_pos hc, if_pos (show seedShort (withInputs es s) = true from hc)]
        rfl
      · rw [if_neg hc, if_neg (show ¬seedShort (withInputs es s) = true from hc)]
        rfl
  | nextBit =>
    simp only [exec, execNextBit]
    refine whenLegal_withInputs es (fun s => ?_) s
    simp only [stepAndTap_withInputs, andThen_assoc, andThen_next]
    rfl
  | nextByte =>
    simp only [exec, execNextByte]
    refine whenLegal_withInputs es (fun s => ?_) s
    simp only [gatherBits_withInputs, andThen_assoc, andThen_next]
    rfl
  | reserved0 =>
    simp only [exec, execReserved0]
    exact whenLegal_withInputs es (fun _ => rfl) s
  | reserved6 =>
    simp only [exec, execReserved6]
    exact whenLegal_withInputs es (fun _ => rfl) s
  | reserved7 =>
    simp only [exec, execReserved7]
    exact whenLegal_withInputs es (fun _ => rfl) s

end Sys2Proof.Machine
end

