-- ==== Sys2Proof/Laws/PerInstr.lean ====
section
/-! SUPPORT. Statements about every command as syntax, one lemma per constructor. -/

namespace Sys2Proof.Laws.OpcodeMap

/-- The command's word lies in the command's row of the opcode map: its `op` field is the row's opcode, and under the
mask it is the row's `match` (30_encoding.md R84). -/
def Statement (i : Instr) : Prop := opField (encode i) = opcode i ∧ encode i &&& rowMask = rowMatch i

/-- Masking a command word keeps its opcode and clears its operand. -/
theorem and_rowMask (op : BitVec 3) (data : BitVec 32) : cmdWord op data &&& rowMask = cmdWord op 0 := by
  have h : rowMask = cmdWord 7 0 := by decide
  refine BitVec.eq_of_getLsbD_eq fun i hi => ?_
  rw [h, BitVec.getLsbD_and, getLsbD_cmdWord, getLsbD_cmdWord, getLsbD_cmdWord]
  split
  · simp
  · have h7 : ∀ k < 3, (7 : BitVec 3).getLsbD k = true := by decide
    rw [h7 (i - 32) (by omega), Bool.and_true]

theorem setRule (rule : RuleTable) : Statement (.setRule rule) :=
  ⟨opField_cmdWord _ _, (and_rowMask 1 _).trans (by decide : cmdWord 1 0 = 0x100000000#35)⟩
theorem seedByte (byte : Byte) : Statement (.seedByte byte) :=
  ⟨opField_cmdWord _ _, (and_rowMask 2 _).trans (by decide : cmdWord 2 0 = 0x200000000#35)⟩
theorem start : Statement .start :=
  ⟨opField_cmdWord _ _, (and_rowMask 3 _).trans (by decide : cmdWord 3 0 = 0x300000000#35)⟩
theorem nextBit : Statement .nextBit :=
  ⟨opField_cmdWord _ _, (and_rowMask 4 _).trans (by decide : cmdWord 4 0 = 0x400000000#35)⟩
theorem nextByte : Statement .nextByte :=
  ⟨opField_cmdWord _ _, (and_rowMask 5 _).trans (by decide : cmdWord 5 0 = 0x500000000#35)⟩
theorem reserved0 : Statement .reserved0 :=
  ⟨opField_cmdWord _ _, (and_rowMask 0 _).trans (by decide : cmdWord 0 0 = 0x000000000#35)⟩
theorem reserved6 : Statement .reserved6 :=
  ⟨opField_cmdWord _ _, (and_rowMask 6 _).trans (by decide : cmdWord 6 0 = 0x600000000#35)⟩
theorem reserved7 : Statement .reserved7 :=
  ⟨opField_cmdWord _ _, (and_rowMask 7 _).trans (by decide : cmdWord 7 0 = 0x700000000#35)⟩

end Sys2Proof.Laws.OpcodeMap
end

