-- ==== Sys2Proof/Laws/Responses.lean ====
section
/-! SUPPORT. A command does not look at the responses given before it: executing it commutes with putting others before
them (10_state.md R37, 43_stream_production.md R177). -/

namespace Sys2Proof.Machine

/-- The state with further responses given before all others. -/
def afterResponses (old : List Response) (s : State) : State := { s with responses := old ++ s.responses }

theorem respond_afterResponses (old : List Response) (st : Status) (d : Byte) (s : State) :
    respond st d (afterResponses old s) = afterResponses old (respond st d s) := by
  simp [respond, afterResponses]

theorem raise_afterResponses (old : List Response) (e : Error) (s : State) :
    raise e (afterResponses old s) = afterResponses old (raise e s) :=
  respond_afterResponses old _ _ { s with err := .error e, phase := .failed }

theorem whenLegal_afterResponses {p : Option Phase} {body : State → Host.Outcome State Fault Refusal}
    (old : List Response)
    (hb : ∀ s, body (afterResponses old s) = andThen (body s) fun t => .next (afterResponses old t)) (s : State) :
    whenLegal p (afterResponses old s) body = andThen (whenLegal p s body) fun t => .next (afterResponses old t) := by
  by_cases hf : s.phase = .failed
  · rw [whenLegal_failed hf, whenLegal_failed (s := afterResponses old s) hf]
    exact congrArg Host.Outcome.next (respond_afterResponses old _ _ s)
  · by_cases hl : p = some s.phase
    · subst hl
      rw [whenLegal_legal hf rfl, whenLegal_legal (s := afterResponses old s) hf rfl]
      exact hb s
    · rw [whenLegal_illegal hf hl, whenLegal_illegal (s := afterResponses old s) hf hl]
      exact congrArg Host.Outcome.next (raise_afterResponses old _ s)

theorem writeSeedBits_afterResponses (old : List Response) (b : Byte) (s : State) (left j : Nat) :
    writeSeedBits b (afterResponses old s) left j =
      andThen (writeSeedBits b s left j) fun t => .next (afterResponses old t) := by
  induction left generalizing s j with
  | zero => rfl
  | succ left ih =>
    by_cases h : seedCell s.seedCnt j < s.cfg.N
    · simp only [writeSeedBits, ringWrite]
      rw [if_pos h, if_pos (show seedCell (afterResponses old s).seedCnt j < (afterResponses old s).cfg.N from h)]
      exact ih { s with ring := s.ring.write (seedCell s.seedCnt j) (b.getLsbD j) } (j + 1)
    · simp only [writeSeedBits, ringWrite]
      rw [if_neg h, if_neg (show ¬seedCell (afterResponses old s).seedCnt j < (afterResponses old s).cfg.N from h)]
      rfl

theorem ringStep_afterResponses (old : List Response) (s : State) :
    ringStep (afterResponses old s) = andThen (ringStep s) fun t => .next (afterResponses old t) := by
  simp only [ringStep, afterResponses]
  cases s.rule with
  | none => rfl
  | some r => cases Ring.snapshot s.cfg.N s.ring <;> rfl

theorem stepAndTap_afterResponses (old : List Response) (s : State) :
    stepAndTap (afterResponses old s) = andThen (stepAndTap s) fun p => .next (afterResponses old p.1, p.2) := by
  simp only [stepAndTap, ringStep_afterResponses, andThen_assoc, andThen_next]
  rfl

theorem gatherBits_afterResponses (old : List Response) (s : State) (acc : Byte) (left j : Nat) :
    gatherBits (afterResponses old s) acc left j =
      andThen (gatherBits s acc left j) fun p => .next (afterResponses old p.1, p.2) := by
  induction left generalizing s acc j with
  | zero => rfl
  | succ left ih =>
    simp only [gatherBits, stepAndTap_afterResponses, andThen_assoc, andThen_next]
    exact congrArg (andThen (stepAndTap s)) (funext fun p => ih p.1 _ _)

/-- Executing a command commutes with putting other responses before those given. -/
theorem exec_afterResponses (old : List Response) (i : Instr) (s : State) :
    exec i (afterResponses old s) = andThen (exec i s) fun t => .next (afterResponses old t) := by
  have hr (st : Status) (d : Byte) (s : State) :
      Host.Outcome.next (φ := Fault) (ρ := Refusal) (respond st d (afterResponses old s)) =
        .next (afterResponses old (respond st d s)) := congrArg _ (respond_afterResponses old st d s)
  have hf (e : Error) (s : State) :
      Host.Outcome.next (φ := Fault) (ρ := Refusal) (raise e (afterResponses old s)) =
        .next (afterResponses old (raise e s)) := congrArg _ (raise_afterResponses old e s)
  cases i with
  | setRule r =>
    simp only [exec, execSetRule]
    exact whenLegal_afterResponses old (fun s => hr _ _ { s with rule := some r, ruleValid := true }) s
  | seedByte b =>
    simp only [exec, execSeedByte]
    refine whenLegal_afterResponses old (fun s => ?_) s
    by_cases hc : seedFull s = true
    · rw [if_pos hc, if_pos (show seedFull (afterResponses old s) = true from hc)]
      exact hf _ s
    · rw [if_neg hc, if_neg (show ¬seedFull (afterResponses old s) = true from hc), writeSeedBits_afterResponses]
      simp only [andThen_assoc, andThen_next]
      exact congrArg (andThen _) (funext fun t => hr _ _ { t with seedCnt := t.seedCnt + 1 })
  | start =>
    simp only [exec, execStart]
    refine whenLegal_afterResponses old (fun s => ?_) s
    by_cases hv : s.ruleValid = false
    · rw [if_pos hv, if_pos (show (afterResponses old s).ruleValid = false from hv)]
      exact hf _ s
    · rw [if_neg hv, if_neg (show ¬(afterResponses old s).ruleValid = false from hv)]
      by_cases hc : seedShort s = true
      · rw [if_pos hc, if_pos (show seedShort (afterResponses old s) = true from hc)]
        exact hf _ s
      · rw [if_neg hc, if_neg (show ¬seedShort (afterResponses old s) = true from hc)]
        exact hr _ _ { s with phase := .run, gen := 0 }
  | nextBit =>
    simp only [exec, execNextBit]
    refine whenLegal_afterResponses old (fun s => ?_) s
    simp only [stepAndTap_afterResponses, andThen_assoc, andThen_next]
    exact congrArg (andThen _) (funext fun p => hr _ _ p.1)
  | nextByte =>
    simp only [exec, execNextByte]
    refine whenLegal_afterResponses old (fun s => ?_) s
    simp only [gatherBits_afterResponses, andThen_assoc, andThen_next]
    exact congrArg (andThen _) (funext fun p => hr _ _ p.1)
  | reserved0 =>
    simp only [exec, execReserved0]
    exact whenLegal_afterResponses old (fun _ => rfl) s
  | reserved6 =>
    simp only [exec, execReserved6]
    exact whenLegal_afterResponses old (fun _ => rfl) s
  | reserved7 =>
    simp only [exec, execReserved7]
    exact whenLegal_afterResponses old (fun _ => rfl) s

end Sys2Proof.Machine
end

