-- ==== Sys2Proof/Laws/Run.lean ====
section
/-! SUPPORT. Runs taken apart: one step of a run, runs of commands one after another, and the record of a run
(43_stream_production.md R180). -/

namespace Sys2Proof.Machine

theorem core_run_succ (k : Nat) (s : State) :
    Host.Core.run core (k + 1) s = andThen (step s) (Host.Core.run core k) := by
  have h : core.step s = step s := rfl
  simp only [Host.Core.run, h]
  cases step s <;> rfl

theorem runInstrs_append (is js : List Instr) (s : State) :
    runInstrs (is ++ js) s = andThen (runInstrs is s) (runInstrs js) := by
  induction is generalizing s with
  | nil => rfl
  | cons i is ih =>
    simp only [List.cons_append, runInstrs, andThen_assoc]
    exact congrArg (andThen (exec i s)) (funext fun t => ih t)

theorem runWords_eq_runInstrs (ws : List CmdWord) (s : State) : runWords ws s = runInstrs (ws.map decode) s := by
  induction ws generalizing s with
  | nil => rfl
  | cons w ws ih =>
    simp only [List.map_cons, runWords, runInstrs]
    exact congrArg (andThen (exec (decode w) s)) (funext fun t => ih t)

/-- A step with a command word first among the host's acts. -/
theorem step_command (w : CmdWord) (es : List HostEvent) (s : State) :
    step (withInputs (.command w :: es) s) = exec (decode w) (withInputs es s) := rfl

/-! ### The record of a run -/

@[simp] theorem runCommands_freshRun : runCommands freshRun = [] := rfl
@[simp] theorem runResponses_freshRun : runResponses freshRun = [] := rfl
@[simp] theorem runOver_freshRun : runOver freshRun = true := rfl

@[simp] theorem runAfterStep_reset (r : Run) (s t : State) (es : List HostEvent) :
    runAfterStep r (withInputs (.reset :: es) s) t = freshRun := rfl

@[simp] theorem runAfterStep_cutOff (r : Run) (s t : State) (w : CmdWord) (es : List HostEvent) :
    runAfterStep r (withInputs (.cutOff w :: es) s) t = freshRun := rfl

@[simp] theorem runAfterStep_idle (r : Run) (s t : State) : runAfterStep r (withInputs [] s) t = r := rfl

/-- A command answered with `x` joins the run with `x`. -/
theorem runAfterStep_command {r : Run} {s t : State} {w : CmdWord} {es : List HostEvent} {x : Response}
    (hi : s.inputs = .command w :: es) (h : t.responses = s.responses ++ [x]) :
    runAfterStep r s t = { r with exchanges := r.exchanges ++ [⟨w, x⟩] } := by
  simp only [runAfterStep, hi, h, List.drop_left, List.map_cons, List.map_nil]

theorem runAfterEdge_reset {r : Run} {p : PortState} {i : PortIn} (h : i.rst = true) : runAfterEdge r p i = freshRun :=
  if_pos h

/-- Where no command is outstanding the run changes by the command accepted, if any. -/
theorem runAfterEdge_idle {r : Run} {p : PortState} {i : PortIn} (h : i.rst = false) (hj : p.job = .idle) :
    runAfterEdge r p i = { r with unanswered := acceptedWord p i } := by
  simp [runAfterEdge, h, hj]

/-- The edge that takes the response `x` of the outstanding command `w` adds the two to the run. -/
theorem runAfterEdge_delivery {r : Run} {p : PortState} {i : PortIn} {w : CmdWord} {x : Response} {old : List Response}
    (h : i.rst = false) (hj : p.job = .outstanding 0) (hr : i.rspReady = true) (hw : r.unanswered = some w)
    (hx : p.engine.responses = old ++ [x]) : runAfterEdge r p i = ⟨r.exchanges ++ [⟨w, x⟩], none⟩ := by
  simp [runAfterEdge, h, hj, hr, hw, hx]

/-- While a response is outstanding and not taken the run does not change. -/
theorem runAfterEdge_wait {r : Run} {p : PortState} {i : PortIn} {left : Nat} (h : i.rst = false)
    (hj : p.job = .outstanding left) (hw : left = 0 → i.rspReady = false) : runAfterEdge r p i = r := by
  cases left with
  | zero => cases hu : r.unanswered <;> simp [runAfterEdge, h, hj, hu, hw rfl]
  | succ left => simp [runAfterEdge, h, hj]

end Sys2Proof.Machine
end

