-- ==== Sys2Proof/Tests/Slice0.lean ====
section
/-! SUPPORT. Tests on fixed values, the expected ones from 95_test_vectors.md by the vector's name (V-..., P...) or from
the rule cited, and one witness for every statement that has hypotheses. -/

namespace Sys2Proof.Tests

open Sys2Proof Sys2Proof.Machine

/-! ### Small states -/

/-- The smallest block, `N` = 8. -/
def c8 : Config := ⟨3, by decide⟩

/-- `N` = 16. -/
def c16 : Config := ⟨4, by decide⟩

/-- In `CFG`, the first `k` bytes of the number `seed` already stored, no rule. -/
def cfgState (c : Config) (k seed : Nat) : State :=
  { State.resetOf c with ring := Ring.ofCells (8 * k) seed.testBit, seedCnt := k }

/-- The same with a rule. -/
def cfgRule (c : Config) (k seed : Nat) (r : RuleTable) : State :=
  { cfgState c k seed with rule := some r, ruleValid := true }

/-- In `RUN`, the ring holding the bits of `seed`. -/
def runState (c : Config) (seed : Nat) (r : RuleTable) : State :=
  { cfgRule c c.seedBytes seed r with phase := .run }

/-- In `FAILED` with the given error, otherwise as reset left it. -/
def failedState (c : Config) (e : Error) : State := { State.resetOf c with phase := .failed, err := .error e }

/-- A property of the next state an outcome gives. -/
def after (o : Host.Outcome State Fault Refusal) (p : State → Bool) : Bool :=
  match o with
  | .next t => p t
  | .fault _ => false
  | .refused _ => false

/-- The ring as a number, bit `i` the cell `i`, where all `N` cells hold a value. -/
def ringByte (s : State) : Option Nat := s.ring.snapshot s.cfg.N

/-- The words of the responses given. -/
def answers (s : State) : List RspWord := s.responses.map responseWord

/-! ### Well-formedness: each check refuses an ill-formed term -/

/-- R8: not a power of two, or below 8. -/
theorem test_ring_length_refused :
    ringLengthOk 12 = false ∧ ringLengthOk 4 = false ∧ ringLengthOk 0 = false ∧ ringLengthOk 1023 = false := by decide
theorem test_ring_length_accepted : ringLengthOk 8 = true ∧ ringLengthOk 1024 = true := by decide
theorem test_elaborate_refuses : Config.elaborate 12 = none ∧ Config.elaborate 4 = none := by decide
theorem test_elaborate_default : Config.elaborate 1024 = some Config.default := by decide
/-- R92: a rule number of 33 bits, a byte of 9 bits, in every line that has one. -/
theorem test_line_refused :
    (Line.setRule (2 ^ 32)).wellFormed = false ∧ (Line.seedByte 256).wellFormed = false ∧
    (Line.init (2 ^ 32) [1]).wellFormed = false ∧ (Line.init 1 [0, 256]).wellFormed = false ∧
    (Line.seed [256]).wellFormed = false := by decide
theorem test_assemble_refuses : (Line.seed [1, 256]).assemble = none := by decide
/-- R7 at the default: `MASK`, `TAP`, `SEED_BYTES`. -/
theorem test_default_parameters :
    Config.default.MASK = 1023 ∧ Config.default.TAP = 512 ∧ Config.default.seedBytes = 128 := by decide

/-! ### Decoding: words written out bit by bit, `ooo` then `data` (R83) -/

/-- V-A1. -/
theorem test_decode_set_rule : decode 0b00100000001011111111111111010000000#35 = .setRule 0x017FFE80#32 := by decide
/-- V-A4. -/
theorem test_decode_seed_byte : decode 0b01000000000000000000000000010001101#35 = .seedByte 0x8D#8 := by decide
/-- V-A5: junk in the unused bits. -/
theorem test_decode_seed_byte_junk : decode 0x2ABCDEF8D#35 = .seedByte 0x8D#8 := by decide
/-- V-A6. -/
theorem test_decode_start : decode 0b01100000000000000000000000000000000#35 = .start := by decide
/-- V-A7. -/
theorem test_decode_next_bit : decode 0b10000000000000000000000000000000000#35 = .nextBit := by decide
/-- V-A9. -/
theorem test_decode_next_byte : decode 0b10100000000000000000000000000000000#35 = .nextByte := by decide
/-- V-A10, V-A11, V-A12. -/
theorem test_decode_reserved :
    decode 0b00000000000000000000000000000000000#35 = .reserved0 ∧
    decode 0b11000000000000000000000000000000000#35 = .reserved6 ∧
    decode 0b11111111111111111111111111111111111#35 = .reserved7 := by decide
/-- V-A1, V-A4, V-A9 the other way. -/
theorem test_encode :
    encode (.setRule 25165440#32) = 0x1017FFE80#35 ∧ encode (.seedByte 0x8D#8) = 0x20000008D#35 ∧
    encode .nextByte = 0x500000000#35 := by decide
/-- The rows of the opcode table are 35 bits wide; 40 bits are five whole bytes. -/
theorem test_decode_table_word :
    decodeTableWord 40 0x20000008D = some (.seedByte 0x8D#8) ∧ decodeTableWord 35 0x600000000 = some .reserved6 ∧
    decodeTableWord 40 0x820000008D = none := by decide
/-- Family A: the response words. -/
theorem test_response_words :
    responseWord ⟨.ok, 0⟩ = 0x000#11 ∧ responseWord ⟨.ok, 0xDE⟩ = 0x0DE#11 ∧
    responseWord ⟨.error .seedTooShort, 0⟩ = 0x200#11 ∧ responseWord ⟨.error .protocolViolation, 0⟩ = 0x600#11 := by decide
/-- R191: the names the engine raises have the codes it gives. -/
theorem test_taxonomy :
    (raisedByEngine .seedTooShort).map errorCode = some (taxonomyCode .seedTooShort) ∧
    (raisedByEngine .protocolViolation).map errorCode = some (taxonomyCode .protocolViolation) ∧
    raisedByEngine .outputSinkError = none ∧ taxonomyCode .outputSinkError = 5 := by decide
/-- R20: the codes of the phases. -/
theorem test_phase_codes : phaseCode .cfg = 0 ∧ phaseCode .run = 1 ∧ phaseCode .failed = 2 := by decide

/-! ### The text form (R92, R93) -/

/-- `SET_RULE 0x1f ; c`. -/
theorem test_parse_set_rule :
    parseLine ['S', 'E', 'T', '_', 'R', 'U', 'L', 'E', ' ', '0', 'x', '1', 'f', ' ', ';', ' ', 'c'] =
      some (some (.setRule 31)) := by decide
/-- `GEN 12 -> (0, 1)`. -/
theorem test_parse_gen :
    parseLine ['G', 'E', 'N', ' ', '1', '2', ' ', '-', '>', ' ', '(', '0', ',', ' ', '1', ')'] =
      some (some (.gen 12)) := by decide
/-- A comment holds no command; `START 1` and `0xg` are no lines. -/
theorem test_parse_none :
    parseLine [';', ' ', 'x'] = some none ∧ parseLine ['S', 'T', 'A', 'R', 'T', ' ', '1'] = none ∧
    parseLine ['G', 'E', 'N', ' ', '0', 'x', 'g'] = none := by decide
/-- R174: `INIT 1, 0x8D`. -/
theorem test_init_expands :
    (Line.init 1 [0x8D]).assemble = some [.reset, .command 0x100000001#35, .command 0x20000008D#35,
      .command 0x300000000#35] := by decide

/-! ### Index, neighbourhood, step -/

/-- V-C1 to V-C9. -/
theorem test_wrap :
    wrap c8 0 .left2 = 6 ∧ wrap c8 0 .left1 = 7 ∧ wrap c8 1 .left2 = 7 ∧ wrap c8 7 .right1 = 0 ∧ wrap c8 7 .right2 = 1 ∧
    wrap c8 6 .right2 = 0 ∧ wrap c8 3 .self = 3 ∧ wrap Config.default 0 .left2 = 1022 ∧
    wrap Config.default 1023 .right2 = 1 := by decide
/-- V-D1 to V-D8. -/
theorem test_nbh : (List.range 8).map (fun i => (nbh c8 (0x8D : Nat).testBit i).toNat) = [13, 27, 22, 12, 24, 17, 3, 6] := by
  decide
/-- V-D9. -/
theorem test_nbh_16 : (List.range 16).map (fun i => (nbh c16 (0x0180 : Nat).testBit i).toNat) =
    [0, 0, 0, 0, 0, 1, 3, 6, 12, 24, 16, 0, 0, 0, 0, 0] := by decide
/-- V-E4, V-E9, V-E10. -/
theorem test_step :
    after (ringStep (runState c8 0x8D 0xFF00FF00#32)) (fun t => ringByte t == some 0x1B) = true ∧
    after (ringStep (runState c8 0x8D 0x03FC03FC#32)) (fun t => ringByte t == some 0xD4) = true ∧
    after (ringStep (runState c8 0x8D 0x017FFE80#32)) (fun t => ringByte t == some 0x3D) = true := by decide
/-- V-E12, V-E13: orientation and wrap. -/
theorem test_step_wraps :
    after (ringStep (runState c8 0x80 0x00010000#32)) (fun t => ringByte t == some 0x02) = true ∧
    after (ringStep (runState c8 0x01 0x00000002#32)) (fun t => ringByte t == some 0x40) = true := by decide
/-- V-E18: the update in place gives another ring. -/
theorem test_step_is_not_in_place :
    Ring.snapshot 8 (inPlaceStep c8 0xFF00FF00#32 (List.range 8) (Ring.ofCells 8 (0x8D : Nat).testBit)) = some 0xFF := by
  decide

/-- V-E4 with two buffers, and with a temporary and the cells from the last to the first (R140). -/
theorem test_buffered_steps :
    ((doubleBufferedStep c8 0xFF00FF00#32 ⟨Ring.ofCells 8 (0x8D : Nat).testBit, [], false⟩).bind fun b =>
      if b.sel then Ring.snapshot 8 (activeBuffer b) else none) = some 0x1B ∧
    ((temporaryStep c8 0xFF00FF00#32 (List.range 8).reverse (Ring.ofCells 8 (0x8D : Nat).testBit)).bind
      (Ring.snapshot 8)) = some 0x1B := by decide

/-! ### The commands -/

/-- V-A1, R111. -/
theorem test_set_rule :
    after (exec (.setRule 25165440#32) (State.resetOf c8))
      (fun t => t.rule == some 0x017FFE80#32 && t.ruleValid && answers t == [0x000#11]) = true := by decide
/-- V-H6: in `RUN`. -/
theorem test_set_rule_in_run :
    after (exec (.setRule 0) (runState c8 0x8D 0xF0F0F0F0#32))
      (fun t => t.phase == .failed && t.rule == some 0xF0F0F0F0#32 && answers t == [0x600#11]) = true := by decide
/-- V-B6, second byte: cells 8 to 15. -/
theorem test_seed_byte :
    after (exec (.seedByte 0x3C) (cfgState c16 1 0xA5)) (fun t => ringByte t == some 0x3CA5 && t.seedCnt == 2) = true := by
  decide
/-- V-H4: a byte too many. -/
theorem test_seed_byte_too_many :
    after (exec (.seedByte 0xFF) (cfgRule c8 1 0x8D 1#32))
      (fun t => t.phase == .failed && t.seedCnt == 1 && ringByte t == some 0x8D && answers t == [0x600#11]) = true := by
  decide
/-- P1. -/
theorem test_start :
    after (exec .start (cfgRule c8 1 0x8D 0xFFFF0000#32)) (fun t => t.phase == .run && answers t == [0x000#11]) = true := by
  decide
/-- V-H3, V-H11: the missing rule outranks the short seed. -/
theorem test_start_errors :
    after (exec .start (cfgState c16 1 0x8D)) (fun t => answers t == [0x600#11]) = true ∧
    after (exec .start (cfgRule c16 0 0 1#32)) (fun t => t.phase == .failed && answers t == [0x200#11]) = true := by decide
/-- V-F2, first response. -/
theorem test_next_bit :
    after (exec .nextBit (runState c8 0x8D 0x017FFE80#32)) (fun t => ringByte t == some 0x3D && answers t == [0x001#11]) =
      true := by decide
/-- V-F4: with the identity rule cell 4 of the seed is the tap. -/
theorem test_next_bit_identity :
    after (exec .nextBit (runState c8 0x8D 0xF0F0F0F0#32)) (fun t => answers t == [0x000#11]) = true := by decide
/-- V-G2. -/
theorem test_next_byte :
    after (exec .nextByte (runState c8 0x8D 0x017FFE80#32)) (fun t => answers t == [0x0C1#11] && t.gen == 8) = true := by
  decide
/-- V-G1, P1: the ring after eight steps is the seed again. -/
theorem test_next_byte_rotation :
    after (exec .nextByte (runState c8 0x8D 0xFFFF0000#32)) (fun t => answers t == [0x033#11] && ringByte t == some 0x8D) =
      true := by decide
/-- V-H7. -/
theorem test_reserved :
    after (exec .reserved0 (State.resetOf c8)) (fun t => answers t == [0x600#11]) = true ∧
    after (exec .reserved6 (State.resetOf c8)) (fun t => t.phase == .failed) = true ∧
    after (exec .reserved7 (runState c8 0x8D 1#32)) (fun t => t.phase == .failed) = true := by decide
/-- V-H1: in `FAILED` the recorded error, for every command. -/
theorem test_failed_sticky :
    after (exec .nextByte (failedState c16 .seedTooShort)) (fun t => answers t == [0x200#11] && t.gen == 0) = true := by
  decide
/-- U10: no cell without a value is read as a zero. -/
theorem test_absent_cell_refused :
    ringRead (State.resetOf c8) 0 = .refused .readOfAbsentCell ∧ ringRead (State.resetOf c8) 8 = .fault (.noSuchCell 8) :=
  ⟨rfl, rfl⟩

/-! ### Steps of the machine -/

/-- A word placed as the next command is the one the next step runs. -/
theorem test_with_fetch_word :
    after (step (State.reset.withFetchWord 40 0x1017FFE80)) (fun t => t.rule == some 25165440#32 && t.inputs == []) = true := by
  decide
/-- V-H12: reset clears `FAILED` and keeps what the host does next. -/
theorem test_reset_step :
    after (step { failedState c8 .protocolViolation with inputs := [.reset, .command 0#35] })
      (fun t => t.phase == .cfg && t.err == .ok && t.inputs == [.command 0#35]) = true := by decide
/-- R232: a command cut off gives no response. -/
theorem test_cut_off_step :
    after (step { runState c8 0x8D 1#32 with inputs := [.cutOff 0x400000000#35] })
      (fun t => t.phase == .cfg && t.ring == [] && answers t == []) = true := by decide

/-! ### Witnesses: for every statement with hypotheses, states and operands that meet them -/

/-- The running state used below: for `StepMakesNextGenerationFromOldRing`, `NextBitStepsThenReturnsTheTap`,
`NextBytePacksEightTaps`, `NextByteIsEightNextBits`. -/
theorem test_running : Running (runState c8 0x8D 0x017FFE80#32) 0x017FFE80#32 (0x8D : Nat).testBit :=
  ⟨by decide, by decide, by decide, by unfold HoldsRing; decide⟩
theorem test_running_16 : Running (runState c16 0x0180 0x03FC03FC#32) 0x03FC03FC#32 (0x0180 : Nat).testBit :=
  ⟨by decide, by decide, by decide, by unfold HoldsRing; decide⟩
/-- `Inv`, in `CFG` empty, half and full, in `RUN`, in `FAILED`: for `EveryCommandIsAnswered` and the statements below. -/
theorem test_inv_cfg_empty : Inv (State.resetOf c16) :=
  ⟨by decide, by decide, by decide, by decide, by decide, by decide, by decide, by decide⟩
theorem test_inv_cfg_half : Inv (cfgState c16 1 0xA5) :=
  ⟨by decide, by decide, by decide, by decide, by decide, by decide, by decide, by decide⟩
theorem test_inv_cfg_full : Inv (cfgRule c16 2 0x3CA5 1#32) :=
  ⟨by decide, by decide, by decide, by decide, by decide, by decide, by decide, by decide⟩
theorem test_inv_run : Inv (runState c8 0x8D 0x017FFE80#32) :=
  ⟨by decide, by decide, by decide, by decide, by decide, by decide, by decide, by decide⟩
theorem test_inv_failed : Inv (failedState c8 .seedTooShort) :=
  ⟨by decide, by decide, by decide, by decide, by decide, by decide, by decide, by decide⟩

theorem test_witness_UnusedOperandBitsAreIgnored :
    ((2 : BitVec 3) ≠ 1 ∧ ((2 : BitVec 3) = 2 → (0xABCDEF8D#32).setWidth 8 = (0x8D#32).setWidth 8)) ∧
    ((3 : BitVec 3) ≠ 1 ∧ ((3 : BitVec 3) = 2 → (0xDEADBEEF#32).setWidth 8 = (0#32).setWidth 8)) := by decide
theorem test_witness_LinesAssembleToTheirCommands :
    0 < 2 ^ 32 ∧ 2 ^ 32 - 1 < 2 ^ 32 ∧ 2 ^ 32 ≤ 2 ^ 32 ∧ 255 < 256 ∧ 256 ≤ 256 := by decide
theorem test_witness_ElaborationAcceptsRingLengths : Config.elaborate 8 = some c8 ∧ Config.elaborate 16 = some c16 := by
  decide
/-- The last cell, another one, and the first index that is none. -/
theorem test_witness_RingReadsBackWhatWasWritten :
    7 < (State.resetOf c8).cfg.N ∧ (State.resetOf c8).cfg.N ≤ 8 ∧ (0 : Nat) ≠ 7 ∧
    (State.resetOf c8).ring.WellFormed (State.resetOf c8).cfg.N := by decide
/-- The ends of the ring, for `WrapIsIndexModuloRingLength`, `NeighbourhoodIntegerPacksFiveCells`, `ClosedFormRuleNumbers`,
`FiveNeighbourCellsAreDistinct` and `GenerationsCommuteWithRotation`. -/
theorem test_witness_cell_index : 0 < c8.N ∧ 7 < c8.N ∧ c8.N = 8 ∧ 1023 < Config.default.N := by decide
theorem test_witness_FiveNeighbourCellsAreDistinct : 7 < c8.N ∧ wrap c8 7 .right1 = wrap c8 7 .right1 := by decide
/-- Inside and outside of the ring, and the generation is as V-E10 says. -/
theorem test_witness_StepMakesNextGenerationFromOldRing :
    Running (runState c8 0x8D 0x017FFE80#32) 0x017FFE80#32 (0x8D : Nat).testBit ∧ 7 < c8.N ∧ c8.N ≤ 8 :=
  ⟨test_running, by decide, by decide⟩
theorem test_witness_BufferedStepsEqualTheStep :
    Running (runState c8 0x8D 0x017FFE80#32) 0x017FFE80#32 (0x8D : Nat).testBit ∧
    List.Perm (List.range 8).reverse (List.range 8) ∧
    activeBuffer ⟨[], Ring.ofCells 8 (0x8D : Nat).testBit, true⟩ = (runState c8 0x8D 0x017FFE80#32).ring :=
  ⟨test_running, List.reverse_perm _, by decide⟩
theorem test_witness_SetRuleLoadsTheRuleTable :
    (State.resetOf c8).phase = .cfg ∧ (runState c8 0x8D 1#32).phase = .run ∧
    (failedState c8 .seedTooShort).phase = .failed := by decide
/-- The last byte that has cells, and the first that has none. -/
theorem test_witness_SeedByteStoresTheNextByte :
    ((cfgState c16 1 0xA5).phase = .cfg ∧ (cfgState c16 1 0xA5).seedCnt < c16.N / 8 ∧ 8 * 1 + 7 < c16.N) ∧
    ((cfgState c16 2 0x3CA5).phase = .cfg ∧ (cfgState c16 2 0x3CA5).seedCnt = c16.N / 8) := by decide
theorem test_witness_StartEndsConstruction :
    (let s := cfgRule c16 2 0x3CA5 1#32; s.phase = .cfg ∧ s.ruleValid = true ∧ s.cfg.N / 8 ≤ s.seedCnt) ∧
    (let s := cfgRule c16 1 0xA5 1#32; s.phase = .cfg ∧ s.ruleValid = true ∧ s.seedCnt < s.cfg.N / 8) ∧
    (let s := cfgState c16 1 0xA5; s.phase = .cfg ∧ s.ruleValid = false) := by decide
/-- For `NextBitStepsThenReturnsTheTap` and `NextBytePacksEightTaps`. -/
theorem test_witness_extraction :
    Running (runState c8 0x8D 0x017FFE80#32) 0x017FFE80#32 (0x8D : Nat).testBit ∧ (State.resetOf c8).phase = .cfg ∧
    (failedState c8 .protocolViolation).phase = .failed :=
  ⟨test_running, by decide, by decide⟩
theorem test_witness_ReservedOpcodesRaiseProtocolViolation :
    (runState c8 0x8D 1#32).phase ≠ .failed ∧ legalPhase .reserved0 ≠ some .run ∧ legalPhase .start ≠ some .run ∧
    legalPhase .nextBit ≠ some .cfg := by decide
/-- One word and phase for each branch of the checks. -/
theorem test_witness_CommonChecksComeFirst :
    (failedState c8 .seedTooShort).phase = .failed ∧
    (opField 0x600000000#35 = 6 ∧ (State.resetOf c8).phase ≠ .failed) ∧
    (opField 0x300000000#35 = 3 ∧ (runState c8 0x8D 1#32).phase = .run) ∧
    (opField 0x400000000#35 = 4 ∧ (State.resetOf c8).phase = .cfg) ∧
    (opField 0x500000000#35 = 5 ∧ (runState c8 0x8D 1#32).phase = .run) := by decide
theorem test_witness_FaultEntryWritesErrAndPhaseOnly :
    after (exec .start (cfgRule c16 1 0xA5 1#32)) (fun t => t.phase == .failed && t.err == .error .seedTooShort) = true ∧
    (cfgRule c16 1 0xA5 1#32).phase ≠ .failed := by decide
theorem test_witness_FailedEngineRepeatsTheRecordedError : (failedState c8 .protocolViolation).phase = .failed := by decide
/-- A next state in each phase, and a reset among the host's acts (for `ResetGivesTheResetValues` too). -/
theorem test_witness_PhaseMachine :
    after (exec .nextBit (runState c8 0x8D 1#32)) (fun t => t.phase == .run) = true ∧ c8.seedBytes ≤ c8.N / 8 ∧
    after (exec (.seedByte 1) (cfgState c8 0 0)) (fun t => t.phase == .cfg) = true ∧ 0 ≤ c8.N / 8 ∧
    after (exec .start (failedState c8 .seedTooShort)) (fun t => t.phase == .failed) = true ∧
    { failedState c8 .seedTooShort with inputs := [HostEvent.reset] }.inputs = .reset :: [] := by decide
/-- A list that runs, from `RUN` (V-H10) and from `FAILED`. -/
theorem test_witness_NoCommandReturnsToConstruction :
    (runState c8 0x8D 1#32).phase ≠ .cfg ∧ (failedState c8 .seedTooShort).phase ≠ .cfg ∧
    after (runWords [0x400000000#35, 0x300000000#35] (runState c8 0x8D 1#32)) (fun t => t.phase == .failed) = true := by
  decide
/-- Every branch of the order: the states meet `Inv` by the witnesses above. -/
theorem test_witness_FirstErrorThatAppliesIsReported :
    Inv (cfgRule c16 2 0x3CA5 1#32) ∧ Inv (cfgState c16 1 0xA5) ∧ Inv (failedState c8 .seedTooShort) ∧
    opField 0x2000000FF#35 = 2 ∧ opField 0x300000000#35 = 3 ∧ (cfgRule c16 2 0x3CA5 1#32).seedCnt = c16.N / 8 ∧
    (cfgState c16 1 0xA5).ruleValid = false ∧ (cfgState c16 1 0xA5).seedCnt < c16.N / 8 :=
  ⟨test_inv_cfg_full, test_inv_cfg_half, test_inv_failed, by decide, by decide, by decide, by decide, by decide⟩
/-- Every element does change. -/
theorem test_witness_EachElementHasItsWriters :
    after (exec (.seedByte 1) (cfgState c8 0 0)) (fun t => t.ring != [] && t.seedCnt != 0) = true ∧
    after (exec .nextBit (runState c8 0x8D 0#32))
      (fun t => t.ring != (runState c8 0x8D 0#32).ring && t.gen != 0) = true ∧
    after (exec (.setRule 1) (State.resetOf c8)) (fun t => t.rule != none && t.ruleValid != false) = true ∧
    after (exec .start (cfgRule c8 1 0x8D 1#32)) (fun t => t.phase != .cfg) = true ∧
    after (exec .start { cfgRule c8 1 0x8D 1#32 with gen := 5 }) (fun t => t.gen == 0) = true ∧
    after (exec .start (State.resetOf c8)) (fun t => t.err != .ok) = true := by decide
theorem test_witness_OneResponsePerCommand :
    after (exec .start (State.resetOf c8)) (fun t => t.responses == [⟨.error .protocolViolation, 0⟩]) = true ∧
    ((State.resetOf c8).err = .ok ↔ (State.resetOf c8).phase ≠ .failed) := by decide
theorem test_witness_NoReadWithoutAdvance :
    after (exec .nextByte (runState c8 0x8D 0xFFFFFFFF#32)) (fun t => t.responses == [] ++ [⟨.ok, 0xFF⟩]) = true ∧
    (0xFF : Byte) ≠ 0 := by decide
theorem test_witness_StepRunsTheDecodedCommand :
    ((State.resetOf c8).withFetchWord 35 0x300000000).inputs = .command 0x300000000#35 :: [] := by decide
/-- For `IdleEngineHoldsItsState` and `RunOfStepsIsRunOfCommands`. -/
theorem test_witness_IdleEngineHoldsItsState : (runState c8 0x8D 1#32).inputs = [] := by decide
theorem test_witness_ResetDuringACommandLeavesNoResponse :
    { runState c8 0x8D 1#32 with inputs := [HostEvent.cutOff 0x500000000#35] }.inputs = .cutOff 0x500000000#35 :: [] ∧
    (PortIn.mk true false 0 0 true).rst = true ∧
    (PortState.mk (respond .ok 1 (runState c8 0x8D 1#32)) (.outstanding 0)).job = .outstanding 0 := by decide
/-- A command and a reset from states that meet the invariants, and a step that stays in `RUN`. -/
theorem test_witness_InvariantsKeptByEveryStep :
    Inv (runState c8 0x8D 0x017FFE80#32) ∧
    after (step (presentWord (runState c8 0x8D 0x017FFE80#32) 0x400000000#35)) (fun t => t.phase == .run) = true ∧
    after (step { failedState c8 .seedTooShort with inputs := [.reset] }) (fun t => t.phase == .cfg) = true :=
  ⟨test_inv_run, by decide, by decide⟩
/-- A failed engine and a running one, with the same acts of the host to come. -/
theorem test_witness_NothingSurvivesReset :
    { failedState c8 .seedTooShort with inputs := [HostEvent.reset, .command 0x300000000#35] }.cfg = (runState c8 1 1#32).cfg ∧
    { failedState c8 .seedTooShort with inputs := [HostEvent.reset, .command 0x300000000#35] }.inputs =
      .reset :: [0x300000000#35].map .command ∧
    { runState c8 1 1#32 with inputs := [HostEvent.reset, .command 0x300000000#35] }.inputs =
      .reset :: [0x300000000#35].map .command := by decide
/-- P5, V-H12: after a failed instance that answered 6, the run since the reset is good and shows its own data only. -/
theorem test_run_after_failure :
    (match recordSteps 3
        { respond (.error .protocolViolation) 0 (failedState c8 .protocolViolation) with
          inputs := [.reset, .command 0x1FFFF0000#35, .command 0x20000008D#35] }
        ⟨[⟨0x300000000#35, ⟨.error .protocolViolation, 0⟩⟩], none⟩ with
      | .next (t, r) => runCommands r == [0x1FFFF0000#35, 0x20000008D#35] && observation r == some [0, 0] &&
          answers t == [0x600#11, 0x000#11, 0x000#11]
      | _ => false) = true := by decide
/-- P4: a run with a status other than `OK` is failed and has no observation (R207). -/
theorem test_failed_run :
    let r : Run := ⟨[⟨0x20000008D#35, ⟨.ok, 0⟩⟩, ⟨0x300000000#35, ⟨.error .seedTooShort, 0⟩⟩], none⟩
    runOver r = true ∧ ¬GoodRun r ∧ observation r = none := by decide
/-- A configuration, words and a failed state before the reset, for `ARunIsAResetAndItsCommandsWithResponses`. -/
theorem test_witness_ARunIsAResetAndItsCommandsWithResponses :
    let s : State := { failedState c8 .seedTooShort with inputs := .reset :: [0x1FFFF0000#35, 0x300000000#35].map .command }
    s.cfg = c8 ∧ s.inputs = .reset :: [0x1FFFF0000#35, 0x300000000#35].map .command := by decide
theorem test_witness_CanonicalRingKept :
    (cfgState c16 1 0xA5).ring.WellFormed (cfgState c16 1 0xA5).cfg.N ∧
    after (exec (.seedByte 0x3C) (cfgState c16 1 0xA5)) (fun t => t.ring.length == 16) = true := by decide
theorem test_witness_SeedMappingRoundTrip : [0xA5#8, 0x3C#8].length = c16.N / 8 ∧ 1 < c16.N / 8 ∧ 15 < c16.N := by decide
/-- V-H9: the rule between the seed bytes; V-H8: the last rule governs. -/
theorem test_witness_ConstructionAsAWhole :
    seedBytesIn [.seedByte 0x80, .setRule 0, .setRule 0x03FC03FC#32, .seedByte 0x01] = [0x80#8, 0x01#8] ∧
    [0x80#8, 0x01#8].length = c16.N / 8 ∧
    (rulesIn [.seedByte 0x80, .setRule 0, .setRule 0x03FC03FC#32, .seedByte 0x01]).getLast? = some 0x03FC03FC#32 := by decide
theorem test_witness_ConstructionAsAWhole_commands :
    ∀ i ∈ [Instr.seedByte 0x80, .setRule 0, .setRule 0x03FC03FC#32, .seedByte 0x01],
      (∃ r, i = .setRule r) ∨ ∃ b, i = .seedByte b := by simp
/-- Exactly `N/8`, fewer, more. -/
theorem test_witness_InitConstructsOrFails :
    (Line.init (2 ^ 32 - 1) [0x80, 0x01]).wellFormed = true ∧ [0x80, 0x01].length = c16.N / 8 ∧
    (Line.init 0 [255]).wellFormed = true ∧ [255].length < c16.N / 8 ∧
    (Line.init 0 [0, 1, 2]).wellFormed = true ∧ c16.N / 8 < [0, 1, 2].length ∧
    { failedState c16 .seedTooShort with inputs := (Line.init 0 [255]).expand }.inputs = (Line.init 0 [255]).expand := by
  decide
/-- For `ByteStreamFormula` and `MixedExtractionTakesTheStreamInOrder`, the commands of P2. -/
theorem test_witness_stream :
    Running (runState c16 0x0180 0x03FC03FC#32) 0x03FC03FC#32 (0x0180 : Nat).testBit ∧
    ∀ i ∈ [Instr.nextBit, .nextBit, .nextBit, .nextByte, .nextByte], i = .nextBit ∨ i = .nextByte :=
  ⟨test_running_16, by decide⟩
/-- P2, V-F5: the bits 0, 0, 1 of generations 1 to 3, and generation 1 at its first and last `1`. -/
theorem test_stream_bits :
    (List.range 3).map (fun t => streamBit c16 0x03FC03FC#32 (0x0180 : Nat).testBit (t + 1)) = [false, false, true] := by decide
theorem test_witness_MicroStepFormRefinesNextByte :
    (MicroState.mk (runState c8 0x8D 0x017FFE80#32) 0xFF 3 false).busy = false ∧
    Running (MicroState.mk (runState c8 0x8D 0x017FFE80#32) 0xFF 3 false).engine 0x017FFE80#32 (0x8D : Nat).testBit :=
  ⟨rfl, test_running⟩
/-- P1: after the second micro-step `ACC` is 0x03. -/
theorem test_micro_step :
    (match andThen (microAccept .nextByte ⟨runState c8 0x8D 0xFFFF0000#32, 0xFF, 3, false⟩) (microRun 2) with
      | .next m => m.acc == 0x03#8 && m.bitCnt == 2 && m.busy
      | _ => false) = true := by decide

/-! ### The ports -/

/-- The host presents `START` for one cycle. -/
def startIn : PortIn := ⟨false, true, 3, 0, false⟩

/-- The host does nothing but take a response if there is one. -/
def takeIn (ready : Bool) : PortIn := ⟨false, false, 0, 0, ready⟩

/-- `START` presented right after reset, the response after two more edges. -/
theorem test_witness_PortAnswersAnAcceptedCommand :
    Inv (State.resetOf c8) ∧ (PortState.mk (State.resetOf c8) .idle).job = .idle ∧
    startIn.rst = false ∧ startIn.cmdValid = true ∧ [takeIn true, takeIn false].length = (fun _ => 3) startIn.cmdOp - 1 ∧
    (∀ j ∈ [takeIn true, takeIn false], j.rst = false) ∧ (takeIn true).rst = false ∧ (takeIn true).rspReady = true :=
  ⟨⟨by decide, by decide, by decide, by decide, by decide, by decide, by decide, by decide⟩,
    by decide, by decide, by decide, by decide, by decide, by decide, by decide⟩
/-- With `LAT_CMD` = 3 the response of an accepted `START` is shown after three edges and not before. -/
theorem test_port_answers :
    (match portRun (fun _ => 3) ⟨State.resetOf c8, .idle⟩ [startIn, takeIn true, takeIn false] with
      | .next q => portOut q false == ⟨false, some 0x600#11⟩ && delivered q == []
      | _ => false) = true ∧
    (match portRun (fun _ => 3) ⟨State.resetOf c8, .idle⟩ [startIn, takeIn true] with
      | .next q => portOut q false == ⟨false, none⟩
      | _ => false) = true := by decide
/-- A command presented while one is outstanding is not accepted (R82); both responses are then delivered in order. -/
theorem test_witness_PortPairsCommandsAndResponses :
    acceptedWords (fun _ => 1) ⟨State.resetOf c8, .idle⟩ [startIn, startIn, takeIn true, startIn] =
      [0x300000000#35, 0x300000000#35] ∧
    (match portRun (fun _ => 1) ⟨State.resetOf c8, .idle⟩ [startIn, startIn, takeIn true, startIn] with
      | .next q => (delivered q).length == 1 && q.job != .idle
      | _ => false) = true ∧
    ∀ i ∈ [startIn, startIn, takeIn true, startIn], i.rst = false := by decide
/-- The host asserts reset for one edge. -/
def resetIn : PortIn := ⟨true, true, 3, 0, true⟩

theorem test_witness_PortRunsAreRuns :
    resetIn.rst = true ∧ ∀ j ∈ [startIn, takeIn false, takeIn true], j.rst = false := by decide
/-- R180: a run whose last command is accepted and not answered is not over; the edge that delivers the response ends it. A
command presented under reset is not accepted. -/
theorem test_port_run :
    (match recordEdges (fun _ => 1) ⟨failedState c8 .seedTooShort, .idle⟩ freshRun [resetIn, startIn, takeIn false] with
      | .next (_, r) => runCommands r == [0x300000000#35] && !runOver r && observation r == none
      | _ => false) = true ∧
    (match recordEdges (fun _ => 1) ⟨failedState c8 .seedTooShort, .idle⟩ freshRun [resetIn, startIn, takeIn true] with
      | .next (_, r) => r == ⟨[⟨0x300000000#35, ⟨.error .protocolViolation, 0⟩⟩], none⟩ && runOver r
      | _ => false) = true := by decide
theorem test_witness_PortHoldsAnUntakenResponse :
    (takeIn false).rst = false ∧ (takeIn false).rspReady = false ∧ Job.outstanding 0 ≠ .idle := by decide

end Sys2Proof.Tests
end

/-! PROOFS. The family 00_scope.md: which ring lengths the block is elaborated for (R8). -/

namespace Sys2Proof

/-- A number passes the check exactly when it is a power of two with exponent at least 3, which is then its `log2`. -/
theorem ringLengthOk_iff (N : Nat) : ringLengthOk N = true ↔ 3 ≤ Nat.log2 N ∧ 2 ^ Nat.log2 N = N := by
  simp only [ringLengthOk, Bool.and_eq_true, decide_eq_true_eq, beq_iff_eq]
  refine and_congr_left fun hpow => ?_
  have hpos : N ≠ 0 := hpow ▸ (Nat.two_pow_pos _).ne'
  exact (Nat.le_log2 hpos (k := 3)).symm

/-- The configuration the block is elaborated with is the one of that ring length; there is none exactly where no
configuration has that ring length. -/
theorem Config.elaborate_eq_some_iff (N : Nat) (c : Config) : Config.elaborate N = some c ↔ c.N = N := by
  constructor
  · intro h
    unfold Config.elaborate at h
    split at h
    case isTrue hok =>
      obtain ⟨hlog, hpow⟩ := (ringLengthOk_iff N).mp hok
      rw [dif_pos hlog] at h
      cases h
      exact hpow
    case isFalse => cases h
  · rintro rfl
    have hlog : Nat.log2 c.N = c.n := Nat.log2_two_pow
    have hok : ringLengthOk c.N = true := (ringLengthOk_iff _).mpr ⟨hlog ▸ c.three_le, by rw [hlog, Config.N]⟩
    simp [Config.elaborate, hok, hlog, c.three_le]

/-- Settles O8: the ring lengths of configurations are the powers of two from 8 up, and elaboration answers the
configuration of the ring length asked for. -/
theorem elaborationAcceptsRingLengths : Obligations.ElaborationAcceptsRingLengths := by
  intro N
  refine ⟨?_, fun c => (Config.elaborate_eq_some_iff N c).mp⟩
  simp only [Option.isSome_iff_exists, Config.elaborate_eq_some_iff]
  constructor
  · rintro ⟨c, rfl⟩
    exact ⟨c.n, c.three_le, rfl⟩
  · rintro ⟨n, hn, rfl⟩
    exact ⟨⟨n, hn⟩, rfl⟩

end Sys2Proof

/-! PROOFS. The family 10_state.md: the writers of each state element (R20), the phase machine (R40), the invariants (R36)
at reset and over every step. -/

namespace Sys2Proof.Machine

/-! ### The writers of the state elements (10_state.md R20) -/

/-- Storing a seed byte changes the ring only: the other fields can be read off the state before. -/
theorem writeSeedBits_eq_withRing {b : Byte} {left j : Nat} {s u : State} (h : writeSeedBits b s left j = .next u) :
    ∃ m, u = { s with ring := m } :=
  ⟨u.ring, (writeSeedBits_cases h).1⟩

/-- Gathering taps changes the ring and adds the number of steps to `GEN`. -/
theorem gatherBits_eq_withRingGen {acc b : Byte} {left j : Nat} {s u : State}
    (h : gatherBits s acc left j = .next (u, b)) : ∃ m, u = { s with ring := m, gen := s.gen + left } :=
  ⟨u.ring, (gatherBits_cases h).1⟩

/-- Settles O30: each effect a command can have is compared, element by element, with the state before it. -/
theorem eachElementHasItsWriters : Obligations.EachElementHasItsWriters := by
  intro i s t h
  cases exec_cases h with
  | failed => simp
  | illegal hp => simp [hp]
  | seedFull b hi hp => simp [hp]
  | noRule hi hp => simp [hp]
  | seedShort hi hp => simp [hp]
  | setRule r hi hp => simp [hi, hp]
  | seedByte b u hi hp _ hu =>
    obtain ⟨m, rfl⟩ := writeSeedBits_eq_withRing hu
    simp [hi, hp]
  | start hi hp => simp [hi, hp]
  | nextBit u v hi hp hu =>
    obtain ⟨r, R, _, _, _, rfl, _⟩ := stepAndTap_cases hu
    simp [hi, hp, stepped]
  | nextByte u b hi hp hu =>
    obtain ⟨m, rfl⟩ := gatherBits_eq_withRingGen hu
    simp [hi, hp, Config.BITS_PER_BYTE]

/-- Outside `CFG` no command changes the rule table. -/
theorem exec_rule_of_ne_cfg {i : Instr} {s t : State} (h : exec i s = .next t) (hp : s.phase ≠ .cfg) :
    t.rule = s.rule := by
  obtain ⟨_, hrule, _⟩ := eachElementHasItsWriters i s t h
  by_contra hne
  exact hp (hrule (.inl hne)).1

/-! ### The phase machine (10_state.md R40) -/

theorem step_of_reset {s : State} {es : List HostEvent} (h : s.inputs = .reset :: es) :
    step s = .next (resetEngine (withInputs es s)) := by
  simp only [step, takeEvent, h, withInputs]

/-- Settles O28: the phase is read off each effect a command can have; a command that is illegal in `CFG` or `RUN` is
matched against the table's rows for that phase. -/
theorem phaseMachine : Obligations.PhaseMachine := by
  refine ⟨fun i s t hle h => ?_, fun s es hin => ⟨_, step_of_reset hin, rfl⟩⟩
  cases exec_cases h with
  | failed hp => simp [hp]
  | illegal hp hl =>
    cases hph : s.phase with
    | cfg => cases i <;> simp_all [legalPhase]
    | run => cases i <;> simp_all [legalPhase]
    | failed => exact absurd hph hp
  | seedFull b hi hp hc =>
    have hfull : s.seedCnt = s.cfg.N / 8 := hc
    simp [hi, hp, hfull]
  | noRule hi hp hv => simp [hi, hp, hv]
  | seedShort hi hp hv hc =>
    have hshort : s.seedCnt ≠ s.cfg.N / 8 := Nat.ne_of_lt hc
    simp [hi, hp, hshort]
  | setRule r hi hp => simp [hi, hp]
  | seedByte b u hi hp hc hu =>
    have hnotFull : s.seedCnt ≠ s.cfg.N / 8 := hc
    obtain ⟨m, rfl⟩ := writeSeedBits_eq_withRing hu
    simp [hi, hp, hnotFull]
  | start hi hp hv hc =>
    have hfull : s.seedCnt = s.cfg.N / 8 := Nat.le_antisymm hle hc
    simp [hi, hp, hv, hfull]
  | nextBit u v hi hp hu =>
    obtain ⟨r, R, _, _, _, rfl, _⟩ := stepAndTap_cases hu
    simp [hi, hp, stepped]
  | nextByte u b hi hp hu =>
    obtain ⟨m, rfl⟩ := gatherBits_eq_withRingGen hu
    simp [hi, hp]

/-! ### The invariants (10_state.md R36) -/

/-- The reset state of every configuration has the invariants: in `CFG`, with no byte stored, no cell holds a value. -/
theorem inv_resetOf (c : Config) : Inv (State.resetOf c) where
  wellFormed := ⟨List.Pairwise.nil, by simp [State.resetOf]⟩
  err_ok_iff := by simp [State.resetOf]
  seedCnt_le := Nat.zero_le _
  cfg_cells := by simp [State.resetOf, Ring.read]
  run_cells := by simp [State.resetOf]
  run_ruleValid := by simp [State.resetOf]
  run_seedCnt := by simp [State.resetOf]
  rule_iff := by simp [State.resetOf]

/-- Settles O39. -/
theorem invariantsHoldAfterReset : Obligations.InvariantsHoldAfterReset :=
  ⟨inv_resetOf, inv_resetOf Config.default⟩

/-- The invariants speak neither of what the host will do nor of the responses given nor of the ghost `GEN`. -/
theorem Inv.withHostAndGen {s : State} (h : Inv s) (es : List HostEvent) (rs : List Response) (g : Nat) :
    Inv { s with inputs := es, responses := rs, gen := g } :=
  ⟨h.wellFormed, h.err_ok_iff, h.seedCnt_le, h.cfg_cells, h.run_cells, h.run_ruleValid, h.run_seedCnt, h.rule_iff⟩

theorem Inv.withInputs {s : State} (h : Inv s) (es : List HostEvent) : Inv (withInputs es s) :=
  h.withHostAndGen es s.responses s.gen

theorem Inv.respond {s : State} (h : Inv s) (st : Status) (d : Byte) : Inv (respond st d s) :=
  h.withHostAndGen s.inputs _ s.gen

theorem inv_resetEngine (s : State) : Inv (resetEngine s) :=
  (inv_resetOf s.cfg).withHostAndGen s.inputs s.responses 0

/-- Fault entry keeps the invariants: `ERR` and `PHASE` change together, and items 4 and 5 do not speak of `FAILED`. -/
theorem Inv.raise {s : State} (h : Inv s) (e : Error) : Inv (raise e s) where
  wellFormed := h.wellFormed
  err_ok_iff := by simp
  seedCnt_le := h.seedCnt_le
  cfg_cells := by simp
  run_cells := by simp
  run_ruleValid := by simp
  run_seedCnt := by simp
  rule_iff := h.rule_iff

/-- Loading a rule in `CFG` keeps the invariants (item 6: `RULE` and `RULE_VALID` are written together). -/
theorem Inv.setRule {s : State} (h : Inv s) (r : RuleTable) (hp : s.phase = .cfg) :
    Inv { s with rule := some r, ruleValid := true } :=
  { h with
    run_ruleValid := by simp [hp]
    rule_iff := by simp }

/-- Storing a seed byte in `CFG` below the full count keeps the invariants (item 4: the eight cells written are the next
eight above those that hold a value). -/
theorem Inv.seedByte {s u : State} {b : Byte} (h : Inv s) (hp : s.phase = .cfg) (hc : s.seedCnt ≠ s.cfg.seedBytes)
    (hu : writeSeedBits b s 8 0 = .next u) : Inv { u with seedCnt := u.seedCnt + 1 } := by
  obtain ⟨hring, hwf, hread⟩ := writeSeedBits_cases hu
  generalize u.ring = m at hring hwf hread
  subst hring
  refine { h with
    wellFormed := hwf h.wellFormed
    seedCnt_le := Nat.lt_of_le_of_ne h.seedCnt_le hc
    cfg_cells := fun _ i hi => ?_
    run_cells := by simp [hp]
    run_seedCnt := by simp [hp] }
  have hold := h.cfg_cells hp i hi
  simp only [hread]
  split
  · simp only [Option.isSome_some, true_iff]
    omega
  · rw [hold]
    omega

/-- Completing construction keeps the invariants: with `SEEDCNT = N/8` the cells that hold a value are all cells
(items 4 and 5). -/
theorem Inv.start {s : State} (h : Inv s) (hp : s.phase = .cfg) (hv : s.ruleValid = true)
    (hc : s.cfg.seedBytes ≤ s.seedCnt) : Inv { s with phase := .run, gen := 0 } :=
  have hfull : s.seedCnt = s.cfg.seedBytes := Nat.le_antisymm h.seedCnt_le hc
  { h with
    err_ok_iff := by simpa [hp] using h.err_ok_iff
    cfg_cells := by simp
    run_cells := fun _ i hi => (h.cfg_cells hp i hi).mpr <| by
      rwa [hfull, ← s.cfg.N_eq_eight_mul_seedBytes]
    run_ruleValid := fun _ => hv
    run_seedCnt := fun _ => hfull }

/-- In `RUN` the ring may be replaced by any canonical ring whose every cell holds a value. -/
theorem Inv.withRing {s : State} (h : Inv s) (hp : s.phase = .run) {m : Ring} (hm : m.WellFormed s.cfg.N)
    (hsome : ∀ i < s.cfg.N, (m.read i).isSome) (g : Nat) : Inv { s with ring := m, gen := g } :=
  { h with
    wellFormed := hm
    cfg_cells := by simp [hp]
    run_cells := fun _ => hsome }

/-- Every command that answers keeps the invariants. -/
theorem exec_keeps_inv {i : Instr} {s t : State} (hs : Inv s) (h : exec i s = .next t) : Inv t := by
  cases exec_cases h with
  | failed => exact hs.respond _ _
  | illegal | seedFull | noRule | seedShort => exact hs.raise _
  | setRule r _ hp => exact (hs.setRule r hp).respond _ _
  | seedByte b u _ hp hc hu => exact (hs.seedByte hp hc hu).respond _ _
  | start _ hp hv hc => exact (hs.start hp hv hc).respond _ _
  | nextBit u v _ hp hu =>
    obtain ⟨r, R, _, _, _, rfl, _⟩ := stepAndTap_cases hu
    have hsome : ∀ i < s.cfg.N, ((stepped r R s).ring.read i).isSome := fun i hi =>
      Option.isSome_of_eq_some (stepped_holds r R s i hi)
    exact (hs.withRing hp (Ring.ofCells_wellFormed _ _) hsome _).respond _ _
  | nextByte u b _ hp hu =>
    obtain ⟨hring, hwf, hsome⟩ := gatherBits_cases hu
    rw [hring]
    exact (hs.withRing hp (hwf hs.wellFormed) (hsome (hs.run_cells hp)) _).respond _ _

/-- Everything a step can do: hold the state, execute the command presented, or reset the engine, with or without a
command cut off (00_scope.md R11; 60_exceptions.md R214; 70_reset_and_hazards.md R230, R232). -/
theorem step_cases {s t : State} (h : step s = .next t) :
    (s.inputs = [] ∧ t = s) ∨
    (∃ w es, s.inputs = .command w :: es ∧ exec (decode w) (withInputs es s) = .next t) ∨
    (∃ e es, s.inputs = e :: es ∧ (e = .reset ∨ ∃ w, e = .cutOff w) ∧ t = resetEngine (withInputs es s)) := by
  cases hin : s.inputs with
  | nil =>
    simp only [step, takeEvent, hin] at h
    exact .inl ⟨rfl, (Host.Outcome.next.inj h).symm⟩
  | cons e es =>
    cases e <;> simp only [step, takeEvent, hin] at h
    case command w => exact .inr (.inl ⟨w, es, rfl, h⟩)
    case reset => exact .inr (.inr ⟨_, es, rfl, .inl rfl, (Host.Outcome.next.inj h).symm⟩)
    case cutOff w => exact .inr (.inr ⟨_, es, rfl, .inr ⟨w, rfl⟩, (Host.Outcome.next.inj h).symm⟩)

/-- Settles O40: an idle step holds the state, a command keeps the invariants and, outside `CFG`, the rule, and a reset
leads to the reset values, where the phase is `CFG`. -/
theorem invariantsKeptByEveryStep : Obligations.InvariantsKeptByEveryStep := by
  intro s t hs h
  obtain ⟨_, rfl⟩ | ⟨w, es, _, hexec⟩ | ⟨e, es, _, _, rfl⟩ := step_cases h
  · exact ⟨hs, fun _ _ => rfl⟩
  · refine ⟨exec_keeps_inv (hs.withInputs es) hexec, fun hrun _ => ?_⟩
    have hp : (withInputs es s).phase ≠ .cfg := by simp [withInputs, hrun]
    exact exec_rule_of_ne_cfg (s := withInputs es s) hexec hp
  · exact ⟨inv_resetEngine _, fun _ hrun => by simp at hrun⟩

end Sys2Proof.Machine

/-! PROOFS. The family 20_memory.md: the circular index (R56), access to the ring (R54, R55) and its canonical form (R50),
every command answered without a read of an absent cell (R61), and steps as commands in order (R63). -/

namespace Sys2Proof.Machine

/-! ### Every command is answered (20_memory.md R61, 30_encoding.md R80) -/

/-- An engine in `RUN` that meets the invariants has a rule and a ring value, so a generation can be made
(10_state.md R36 items 5 and 6). -/
theorem Inv.running {s : State} (h : Inv s) (hp : s.phase = .run) : ∃ r R, Running s r R := by
  obtain ⟨r, hr⟩ := Option.isSome_iff_exists.mp (h.rule_iff.mpr (h.run_ruleValid hp))
  refine ⟨r, fun i => (s.ring.read i).getD false, hp, hr, h.wellFormed, fun i hi => ?_⟩
  obtain ⟨v, hv⟩ := Option.isSome_iff_exists.mp (h.run_cells hp i hi)
  simp [hv]

/-- With `SEEDCNT` below `N/8` the eight cells of the next seed byte exist, so it can be stored. -/
theorem Inv.writeSeedBits_answers {s : State} (h : Inv s) (hc : s.seedCnt ≠ s.cfg.seedBytes) (b : Byte) :
    ∃ u, writeSeedBits b s 8 0 = .next u := by
  have hlt : s.seedCnt < s.cfg.seedBytes := Nat.lt_of_le_of_ne h.seedCnt_le hc
  have hN := s.cfg.N_eq_eight_mul_seedBytes
  exact Machine.writeSeedBits_answers (by omega)

/-- Past the common checks, every command's own rule answers a next state where the invariants hold. -/
theorem exec_answers_of_legal {i : Instr} {s : State} (hs : Inv s) (hl : legalPhase i = some s.phase) :
    ∃ t, exec i s = .next t := by
  cases i with
  | setRule r =>
    have hp : s.phase = .cfg := (Option.some.inj hl).symm
    rw [exec, execSetRule, whenLegal_legal (by decide) hp]
    exact ⟨_, rfl⟩
  | seedByte b =>
    have hp : s.phase = .cfg := (Option.some.inj hl).symm
    rw [exec, execSeedByte, whenLegal_legal (by decide) hp]
    by_cases hc : s.seedCnt = s.cfg.seedBytes
    · exact ⟨_, if_pos (by simpa [seedFull] using hc)⟩
    · obtain ⟨u, hu⟩ := hs.writeSeedBits_answers hc b
      rw [if_neg (by simpa [seedFull] using hc), hu]
      exact ⟨_, rfl⟩
  | start =>
    have hp : s.phase = .cfg := (Option.some.inj hl).symm
    rw [exec, execStart, whenLegal_legal (by decide) hp]
    split
    · exact ⟨_, rfl⟩
    · split <;> exact ⟨_, rfl⟩
  | nextBit =>
    have hp : s.phase = .run := (Option.some.inj hl).symm
    obtain ⟨r, R, hrun⟩ := hs.running hp
    rw [exec, execNextBit, whenLegal_legal (by decide) hp, stepAndTap_of_running hrun]
    exact ⟨_, rfl⟩
  | nextByte =>
    have hp : s.phase = .run := (Option.some.inj hl).symm
    obtain ⟨r, R, hrun⟩ := hs.running hp
    obtain ⟨u, hu, _⟩ := gatherBits_of_running hrun 0 Config.BITS_PER_BYTE 0
    rw [exec, execNextByte, whenLegal_legal (by decide) hp, hu]
    exact ⟨_, rfl⟩
  | reserved0 | reserved6 | reserved7 => cases hl

/-- No command faults and none is refused where the invariants hold. -/
theorem exec_answers {s : State} (hs : Inv s) (i : Instr) : ∃ t, exec i s = .next t := by
  by_cases hl : legalPhase i = some s.phase
  · exact exec_answers_of_legal hs hl
  · obtain ⟨body, hb⟩ := exec_whenLegal i
    rw [hb]
    by_cases hf : s.phase = .failed
    · exact ⟨_, whenLegal_failed hf⟩
    · exact ⟨_, whenLegal_illegal hf hl⟩

/-- A command that answers gives exactly one response (30_encoding.md R80): every effect is `respond` or fault entry after
operations that give none. -/
theorem exec_responds_once {i : Instr} {s t : State} (h : exec i s = .next t) :
    ∃ x, t.responses = s.responses ++ [x] := by
  cases exec_cases h with
  | failed | illegal | seedFull | noRule | seedShort | setRule | start => exact ⟨_, rfl⟩
  | seedByte b u _ _ _ hu =>
    obtain ⟨m, rfl⟩ := writeSeedBits_eq_withRing hu
    exact ⟨_, rfl⟩
  | nextBit u v _ _ hu =>
    obtain ⟨r, R, _, _, _, rfl, _⟩ := stepAndTap_cases hu
    exact ⟨_, rfl⟩
  | nextByte u b _ _ hu =>
    obtain ⟨m, rfl⟩ := gatherBits_eq_withRingGen hu
    exact ⟨_, rfl⟩

/-- Settles O41: progress (`exec_answers`), one response (`exec_responds_once`) and preservation (`exec_keeps_inv`). -/
theorem everyCommandIsAnswered : Obligations.EveryCommandIsAnswered := by
  intro s hs i
  obtain ⟨t, ht⟩ := exec_answers hs i
  obtain ⟨x, hx⟩ := exec_responds_once ht
  exact ⟨t, x, ht, hx, exec_keeps_inv hs ht⟩

/-! ### The circular index (20_memory.md R56) -/

/-- On numbers from 2 up the truncating subtraction of `Offset.addTo` cuts nothing off: it is the sum in the integers. -/
theorem Offset.addTo_eq_add_toInt (d : Offset) {x : Nat} (hx : 2 ≤ x) : (d.addTo x : Int) = x + d.toInt := by
  cases d <;> simp only [Offset.addTo, Offset.toInt] <;> omega

theorem Offset.toInt_bounds (d : Offset) : -2 ≤ d.toInt ∧ d.toInt ≤ 2 := by
  cases d <;> decide

/-- The circular index is the remainder of the integer `i + d`: the `N` added before the mask is a multiple of `N`. -/
theorem wrap_eq_emod (c : Config) (i : Nat) (d : Offset) : (wrap c i d : Int) = (i + d.toInt) % c.N := by
  have hN := c.eight_le_N
  rw [wrap_eq_mod, Int.natCast_emod, d.addTo_eq_add_toInt (by omega)]
  push_cast
  rw [add_right_comm, Int.add_emod_right]

/-- Settles O9: the natural number is what `wrap` masks, bounded by `0 ≤ i < N` and `-2 ≤ d ≤ 2`. -/
theorem wrapIsIndexModuloRingLength : Obligations.WrapIsIndexModuloRingLength := by
  intro c i d hi
  have hN := c.eight_le_N
  have hx := d.addTo_eq_add_toInt (x := i + c.N) (by omega)
  obtain ⟨hlo, hhi⟩ := d.toInt_bounds
  refine ⟨⟨d.addTo (i + c.N), ?_, rfl, ?_, ?_⟩, wrap_eq_emod c i d, wrap_lt c i d⟩
  · exact_mod_cast hx
  · omega
  · omega

/-! ### Steps and commands in order (20_memory.md R63) -/

/-- Settles O33. -/
theorem stepRunsTheDecodedCommand : Obligations.StepRunsTheDecodedCommand := by
  intro s w es hin
  simp only [step, takeEvent, hin]

/-- A run whose first step serves a command: the command is executed, and the host's further acts are served after it. -/
theorem core_run_command (k : Nat) (w : CmdWord) (es : List HostEvent) (s : State) :
    Host.Core.run core (k + 1) (withInputs (.command w :: es) s) =
      andThen (exec (decode w) s) fun t => Host.Core.run core k (withInputs es t) := by
  refine (core_run_succ k _).trans ?_
  rw [step_command, exec_withInputs]
  exact andThen_assoc _ _ _

/-- As many steps as there are command words first among the host's acts are the commands in order; what the host will do
after them is neither looked at nor changed. -/
theorem core_run_commands (ws : List CmdWord) (es : List HostEvent) (s : State) :
    Host.Core.run core ws.length (withInputs (ws.map .command ++ es) s) = runWords ws (withInputs es s) := by
  induction ws generalizing s with
  | nil => rfl
  | cons w ws ih =>
    refine (core_run_command ws.length w (ws.map .command ++ es) s).trans ?_
    rw [runWords, exec_withInputs, andThen_assoc]
    exact congrArg (andThen (exec (decode w) s)) (funext ih)

/-- Settles O37: the case of `core_run_commands` where the host does nothing more. -/
theorem runOfStepsIsRunOfCommands : Obligations.RunOfStepsIsRunOfCommands := by
  intro ws s hin
  have hidle : withInputs [] s = s := by rw [← hin]; rfl
  have hrun := core_run_commands ws [] s
  rw [List.append_nil, hidle] at hrun
  exact hrun

/-! ### The ring as memory (20_memory.md R50, R54, R55) -/

/-- Settles O42: a command leaves the ring alone, writes a seed byte into it, or replaces it by the next generations. -/
theorem canonicalRingKept : Obligations.CanonicalRingKept := by
  intro i s t h hwf
  cases exec_cases h with
  | failed | illegal | seedFull | noRule | seedShort | setRule | start => exact hwf
  | seedByte b u _ _ _ hu =>
    obtain ⟨hring, hkeep, _⟩ := writeSeedBits_cases hu
    have hcfg : u.cfg = s.cfg := by rw [hring]
    simpa [hcfg] using hkeep hwf
  | nextBit u v _ _ hu =>
    obtain ⟨r, R, _, _, _, rfl, _⟩ := stepAndTap_cases hu
    exact Ring.ofCells_wellFormed _ _
  | nextByte u b _ _ hu =>
    obtain ⟨hring, hkeep, _⟩ := gatherBits_cases hu
    have hcfg : u.cfg = s.cfg := by rw [hring]
    simpa [hcfg] using hkeep hwf

/-- Settles O11: inside the ring by `Ring.read_write` and `Ring.write_wellFormed`, outside by the bounds check. -/
theorem ringReadsBackWhatWasWritten : Obligations.RingReadsBackWhatWasWritten := by
  intro s i v
  refine ⟨fun hi => ?_, fun hi => ⟨if_neg (Nat.not_lt.mpr hi), if_neg (Nat.not_lt.mpr hi)⟩⟩
  refine ⟨{ s with ring := s.ring.write i v }, if_pos hi, rfl, ringRead_of_read hi ?_, fun j hj => ?_,
    fun hwf => Ring.write_wellFormed hwf hi v⟩
  · rw [Ring.read_write, if_pos rfl]
  · rw [Ring.read_write, if_neg hj]

end Sys2Proof.Machine

/-! PROOFS. The family 30_encoding.md: the command word and its decoder (R83 to R87), the text lines (R92), the response
word (R88), the common checks (R94, R95), one response per command (R80, R90), and the handshake at the ports (R82). -/

namespace Sys2Proof

/-! ### The decoder on each row of the opcode map (30_encoding.md R84, R87) -/

@[simp] theorem decode_cmdWord_zero (d : BitVec 32) : decode (cmdWord 0#3 d) = .reserved0 := by simp [decode]
@[simp] theorem decode_cmdWord_one (d : BitVec 32) : decode (cmdWord 1#3 d) = .setRule d := by simp [decode]
@[simp] theorem decode_cmdWord_two (d : BitVec 32) : decode (cmdWord 2#3 d) = .seedByte (d.setWidth 8) := by
  simp [decode]
@[simp] theorem decode_cmdWord_three (d : BitVec 32) : decode (cmdWord 3#3 d) = .start := by simp [decode]
@[simp] theorem decode_cmdWord_four (d : BitVec 32) : decode (cmdWord 4#3 d) = .nextBit := by simp [decode]
@[simp] theorem decode_cmdWord_five (d : BitVec 32) : decode (cmdWord 5#3 d) = .nextByte := by simp [decode]
@[simp] theorem decode_cmdWord_six (d : BitVec 32) : decode (cmdWord 6#3 d) = .reserved6 := by simp [decode]
@[simp] theorem decode_cmdWord_seven (d : BitVec 32) : decode (cmdWord 7#3 d) = .reserved7 := by simp [decode]

theorem opcode_cases (op : BitVec 3) :
    op = 0#3 ∨ op = 1#3 ∨ op = 2#3 ∨ op = 3#3 ∨ op = 4#3 ∨ op = 5#3 ∨ op = 6#3 ∨ op = 7#3 := by
  revert op
  decide

/-- Every command word is an opcode of the map with operand bits. -/
theorem cmdWord_cases (w : CmdWord) : ∃ d, w = cmdWord 0#3 d ∨ w = cmdWord 1#3 d ∨ w = cmdWord 2#3 d ∨
    w = cmdWord 3#3 d ∨ w = cmdWord 4#3 d ∨ w = cmdWord 5#3 d ∨ w = cmdWord 6#3 d ∨ w = cmdWord 7#3 d := by
  obtain ⟨op, d, rfl⟩ : ∃ op d, w = cmdWord op d := ⟨_, _, (cmdWord_fields w).symm⟩
  refine ⟨d, ?_⟩
  rcases opcode_cases op with rfl | rfl | rfl | rfl | rfl | rfl | rfl | rfl <;> simp

/-- A command word decodes to a command of its own opcode. -/
@[simp] theorem opcode_decode (w : CmdWord) : opcode (decode w) = opField w := by
  obtain ⟨d, rfl | rfl | rfl | rfl | rfl | rfl | rfl | rfl⟩ := cmdWord_cases w <;> simp [opcode]

/-- The operand bits the command with opcode `op` uses: all for `SET_RULE`, the low byte for `SEED_BYTE`, else none
(30_encoding.md R85, R86). -/
def operandMask (op : BitVec 3) : BitVec 32 := if op = 1 then 0xFFFFFFFF else if op = 2 then 0xFF else 0

/-- The low byte of the operand bits, zero-extended, is what the mask of `SEED_BYTE` leaves. -/
theorem setWidth_byte_eq_and (d : BitVec 32) : (d.setWidth 8).setWidth 32 = d &&& 0xFF#32 := by
  have hmask : ∀ i < 32, (0xFF#32).getLsbD i = decide (i < 8) := by decide
  refine BitVec.eq_of_getLsbD_eq fun i hi => ?_
  rw [BitVec.getLsbD_and, hmask i hi]
  simp [hi, Bool.and_comm]

/-- The operand of the decoded command is the word's operand bits that the command uses. -/
theorem operandBits_decode (w : CmdWord) : operandBits (decode w) = dataField w &&& operandMask (opField w) := by
  obtain ⟨d, rfl | rfl | rfl | rfl | rfl | rfl | rfl | rfl⟩ := cmdWord_cases w
  case inr.inl => simpa [operandBits, operandMask] using (BitVec.and_allOnes (x := d)).symm
  case inr.inr.inl => simpa [operandBits, operandMask] using setWidth_byte_eq_and d
  all_goals simp [operandBits, operandMask]

theorem decode_encode (i : Instr) : decode (encode i) = i := by
  cases i <;> simp [encode, opcode, operandBits]

theorem cmdWord_and_cmdWord (op op' : BitVec 3) (d d' : BitVec 32) :
    cmdWord op d &&& cmdWord op' d' = cmdWord (op &&& op') (d &&& d') :=
  BitVec.and_append

/-- Encoding a decoded word clears the operand bits its command does not use, and nothing else. -/
theorem encode_decode (w : CmdWord) : encode (decode w) = w &&& cmdWord 7 (operandMask (opField w)) := by
  have hop : opField w &&& 7 = opField w := BitVec.and_allOnes
  calc encode (decode w)
    _ = cmdWord (opField w) (dataField w &&& operandMask (opField w)) := by
        rw [encode, opcode_decode, operandBits_decode]
    _ = cmdWord (opField w) (dataField w) &&& cmdWord 7 (operandMask (opField w)) := by
        rw [cmdWord_and_cmdWord, hop]
    _ = w &&& cmdWord 7 (operandMask (opField w)) := by rw [cmdWord_fields]

/-- Settles O1: `decode_encode`, and `encode_decode` with the mask of each opcode written as a word. -/
theorem decodeEncodeAgree : Obligations.DecodeEncodeAgree := by
  refine ⟨decode_encode, fun w => ?_⟩
  rw [encode_decode, operandMask, apply_ite (cmdWord 7), apply_ite (cmdWord 7)]
  rfl

/-- The `match` of a row is the row's opcode with operand bits 0. -/
theorem rowMatch_eq (i : Instr) : rowMatch i = cmdWord (opcode i) 0 := by
  cases i <;> simp only [rowMatch, opcode] <;> decide

/-- Under the mask a word keeps its opcode only. -/
theorem and_rowMask_eq_opcode (w : CmdWord) : w &&& rowMask = cmdWord (opField w) 0 := by
  rw [← Laws.OpcodeMap.and_rowMask _ (dataField w), cmdWord_fields]

/-- Settles O2: under the mask a word is its opcode with operand bits 0, which is the `match` of that opcode's row. -/
theorem wordsMatchTheirOpcodeRow : Obligations.WordsMatchTheirOpcodeRow := by
  intro w
  have hw : w &&& 0x700000000#35 = cmdWord (opField w) 0 := and_rowMask_eq_opcode w
  simp only [hw, rowMatch_eq, opcode_decode, true_and]
  intro i h
  simpa using (congrArg opField h).symm

/-- Settles O3: by the opcode; the decoder reads operand bits for opcodes 1 and 2 only. -/
theorem unusedOperandBitsAreIgnored : Obligations.UnusedOperandBitsAreIgnored := by
  intro op d d' h1 h2
  rcases opcode_cases op with rfl | rfl | rfl | rfl | rfl | rfl | rfl | rfl
  case inr.inl => exact absurd rfl h1
  case inr.inr.inl => simp [h2 rfl]
  all_goals simp

/-- Settles O4, by evaluating the decoder on the ten words. -/
theorem specWordsDecode : Obligations.SpecWordsDecode := by
  unfold Obligations.SpecWordsDecode
  decide

/-- Settles O5: the wider numbers are those `decodeBits` rejects. -/
theorem tableWordsDecode : Obligations.TableWordsDecode := by
  intro nbits w
  unfold decodeTableWord decodeBits tableBits
  split <;> rfl

/-! ### The text lines (30_encoding.md R92) -/

theorem assemble_of_wellFormed {l : Line} (h : l.wellFormed = true) : l.assemble = some l.expand := if_pos h

theorem assemble_of_not_wellFormed {l : Line} (h : l.wellFormed = false) : l.assemble = none := by
  simp [Line.assemble, h]

/-- Settles O6: a line in range expands to the encoded command, which decodes to itself. -/
theorem linesAssembleToTheirCommands : Obligations.LinesAssembleToTheirCommands := by
  refine ⟨fun r hr => ?_, fun b hb => ?_, ?_, ?_, ?_, rfl, fun r hr => ?_, fun b hb => ?_⟩
  · exact ⟨_, _, assemble_of_wellFormed (decide_eq_true hr), decode_encode _,
      (BitVec.toNat_ofNat ..).trans (Nat.mod_eq_of_lt hr)⟩
  · exact ⟨_, _, assemble_of_wellFormed (decide_eq_true hb), decode_encode _,
      (BitVec.toNat_ofNat ..).trans (Nat.mod_eq_of_lt hb)⟩
  · exact ⟨_, rfl, decode_encode .start⟩
  · exact ⟨_, rfl, decode_encode .nextBit⟩
  · exact ⟨_, rfl, decode_encode .nextByte⟩
  · exact assemble_of_not_wellFormed (decide_eq_false (Nat.not_lt.mpr hr))
  · exact assemble_of_not_wellFormed (decide_eq_false (Nat.not_lt.mpr hb))

end Sys2Proof

namespace Sys2Proof.Machine

/-! ### The response word (30_encoding.md R88) -/

theorem responseWord_toNat (x : Response) :
    (responseWord x).toNat = (statusCode x.status).toNat * 256 + x.data.toNat := by
  rw [responseWord, BitVec.toNat_append, ← Nat.shiftLeft_add_eq_or_of_lt x.data.isLt, Nat.shiftLeft_eq]

/-- Settles O7, by `responseWord_toNat` and the three status codes. -/
theorem responseWordLayout : Obligations.ResponseWordLayout := by
  intro st d
  refine ⟨responseWord_toNat ⟨st, d⟩, ?_⟩
  match st with
  | .ok => rfl
  | .error .seedTooShort => rfl
  | .error .protocolViolation => rfl

/-! ### The common checks (30_encoding.md R87, R94, R95) -/

/-- In `FAILED` every command is answered with the recorded error and nothing else changes. -/
theorem exec_of_failed (i : Instr) {s : State} (h : s.phase = .failed) : exec i s = .next (respond s.err 0 s) := by
  obtain ⟨body, hb⟩ := exec_whenLegal i
  rw [hb, whenLegal_failed h]

/-- A command that is not legal in the phase enters the fault with `ProtocolViolation`. -/
theorem exec_of_illegal {i : Instr} {s : State} (hf : s.phase ≠ .failed) (hl : legalPhase i ≠ some s.phase) :
    exec i s = .next (raise .protocolViolation s) := by
  obtain ⟨body, hb⟩ := exec_whenLegal i
  rw [hb, whenLegal_illegal hf hl]

/-- Settles O23: a reserved opcode is legal in no phase. -/
theorem reservedOpcodesRaiseProtocolViolation : Obligations.ReservedOpcodesRaiseProtocolViolation := by
  refine ⟨fun d => ⟨decode_cmdWord_zero d, decode_cmdWord_six d, decode_cmdWord_seven d⟩, fun i s hi hf => ?_,
    fun i s hf => exec_of_failed i hf⟩
  have hl : legalPhase i ≠ some s.phase := by
    rcases hi with rfl | rfl | rfl | hl
    · simp [legalPhase]
    · simp [legalPhase]
    · simp [legalPhase]
    · exact hl
  exact exec_of_illegal hf hl

/-- The checks on opcode and phase fail exactly where the command of the word is not legal in the phase. -/
theorem legalPhase_decode_ne_iff (w : CmdWord) (p : Phase) : legalPhase (decode w) ≠ some p ↔
    (opField w = 0 ∨ opField w = 6 ∨ opField w = 7) ∨
      ((opField w = 1 ∨ opField w = 2 ∨ opField w = 3) ∧ p ≠ .cfg) ∨
      ((opField w = 4 ∨ opField w = 5) ∧ p ≠ .run) := by
  obtain ⟨d, rfl | rfl | rfl | rfl | rfl | rfl | rfl | rfl⟩ := cmdWord_cases w <;>
    simp [legalPhase, eq_comm (b := p)]

/-- Settles O24: the three branches are `exec_of_failed`, `exec_of_illegal` and what is left. -/
theorem commonChecksComeFirst : Obligations.CommonChecksComeFirst := by
  intro w s
  have hchecks := legalPhase_decode_ne_iff w s.phase
  split
  case isTrue hf => exact exec_of_failed _ hf
  case isFalse hf =>
    split
    case isTrue hc => exact exec_of_illegal hf (hchecks.mpr hc)
    case isFalse hc => exact not_not.mp (mt hchecks.mp hc)

/-! ### One response per command (30_encoding.md R80, R90) -/

/-- Settles O31: each effect a command can have is fault entry, the recorded error, or a response `OK` in a phase other
than `FAILED`. -/
theorem oneResponsePerCommand : Obligations.OneResponsePerCommand := by
  intro i s t h
  cases exec_cases h with
  | failed => exact ⟨_, rfl, fun _ => rfl, id⟩
  | illegal | seedFull | noRule | seedShort => exact ⟨_, rfl, fun _ => rfl, by simp⟩
  | setRule _ _ hp => exact ⟨_, rfl, by simp, by simp [hp]⟩
  | start => exact ⟨_, rfl, by simp, by simp⟩
  | seedByte b u _ hp _ hu =>
    obtain ⟨m, rfl⟩ := writeSeedBits_eq_withRing hu
    exact ⟨_, rfl, by simp, by simp [hp]⟩
  | nextBit u v _ hp hu =>
    obtain ⟨r, R, _, _, _, rfl, _⟩ := stepAndTap_cases hu
    exact ⟨_, rfl, by simp, by simp [stepped, hp]⟩
  | nextByte u b _ hp hu =>
    obtain ⟨m, rfl⟩ := gatherBits_eq_withRingGen hu
    exact ⟨_, rfl, by simp, by simp [hp]⟩

/-- Command words that are all answered give one response each. -/
theorem runWords_responses {ws : List CmdWord} {s t : State} (h : runWords ws s = .next t) :
    ∃ new, t.responses = s.responses ++ new ∧ new.length = ws.length := by
  induction ws generalizing s with
  | nil =>
    cases h
    exact ⟨[], by simp, rfl⟩
  | cons w ws ih =>
    obtain ⟨u, hu, h⟩ := andThen_eq_next h
    obtain ⟨x, hx⟩ := exec_responds_once hu
    obtain ⟨new, hnew, hlen⟩ := ih h
    exact ⟨x :: new, by simp [hnew, hx], by simp [hlen]⟩

/-! ### The handshake at the ports (30_encoding.md R82) -/

/-- While a command is outstanding none is accepted. -/
theorem acceptedWord_of_outstanding {p : PortState} (hj : p.job ≠ .idle) (i : PortIn) : acceptedWord p i = none := by
  have hready : (portOut p i.rst).cmdReady = false := by
    unfold portOut
    split
    · rfl
    · split
      · exact absurd ‹_› hj
      · rfl
      · rfl
  simp [acceptedWord, hready]

/-- While no command is outstanding, and no reset, the word presented is accepted. -/
theorem acceptedWord_of_idle {p : PortState} {i : PortIn} (hr : i.rst = false) (hj : p.job = .idle) :
    acceptedWord p i = if i.cmdValid then some (portWord i) else none := by
  simp [acceptedWord, portOut, hr, hj]

/-- Settles O52; the last clause is `acceptedWord_of_outstanding`. -/
theorem portHoldsAnUntakenResponse : Obligations.PortHoldsAnUntakenResponse := by
  refine fun lat p i => ⟨fun hj hr ht => ?_, rfl, fun hj => acceptedWord_of_outstanding hj i⟩
  simp [portTick, hj, hr, ht]

/-- Everything an edge without reset can do: a command is accepted and executed, its response from then on outstanding;
or none is accepted and the engine is unchanged. -/
theorem portTick_cases {lat : BitVec 3 → Nat} {p q : PortState} {i : PortIn} (hr : i.rst = false)
    (h : portTick lat p i = .next q) :
    (∃ w, acceptedWord p i = some w ∧ p.job = .idle ∧ exec (decode w) p.engine = .next q.engine ∧
      q.job = .outstanding (lat i.cmdOp - 1)) ∨
    (acceptedWord p i = none ∧ q.engine = p.engine ∧ (p.job = .idle → q.job = .idle)) := by
  cases hj : p.job with
  | idle =>
    rw [acceptedWord_of_idle hr hj]
    simp only [portTick, hr, hj, Bool.false_eq_true, if_false] at h
    split at h
    case isTrue hv =>
      obtain ⟨t, ht, h⟩ := andThen_eq_next h
      cases h
      exact .inl ⟨portWord i, if_pos hv, rfl, ht, rfl⟩
    case isFalse hv =>
      cases h
      exact .inr ⟨if_neg hv, rfl, fun _ => hj⟩
  | outstanding left =>
    refine .inr ⟨acceptedWord_of_outstanding (by simp [hj]) i, ?_, by simp⟩
    simp only [portTick, hr, hj, Bool.false_eq_true, if_false] at h
    cases left with
    | zero =>
      cases h
      split <;> rfl
    | succ left =>
      cases h
      rfl

theorem runWords_append (ws vs : List CmdWord) (s : State) :
    runWords (ws ++ vs) s = andThen (runWords ws s) (runWords vs) := by
  simp only [runWords_eq_runInstrs, List.map_append, runInstrs_append, funext (runWords_eq_runInstrs vs)]

/-- One edge without reset executes the word accepted at it, if any; a command is outstanding after it only if one was
before it or one was accepted at it. -/
theorem portTick_runs_acceptedWord {lat : BitVec 3 → Nat} {p q : PortState} {i : PortIn} (hr : i.rst = false)
    (h : portTick lat p i = .next q) :
    runWords (acceptedWord p i).toList p.engine = .next q.engine ∧
      (p.job = .idle → acceptedWord p i = none → q.job = .idle) := by
  obtain ⟨w, hw, _, hexec, _⟩ | ⟨hw, heng, hjob⟩ := portTick_cases hr h
  · simp [hw, runWords, hexec]
  · simpa [hw, runWords, heng] using hjob

/-- Edges without reset execute the accepted words in order; a command is outstanding after them only if one was before
them or one was accepted. -/
theorem portRun_runs_acceptedWords {lat : BitVec 3 → Nat} {p q : PortState} {is : List PortIn}
    (hr : ∀ i ∈ is, i.rst = false) (h : portRun lat p is = .next q) :
    runWords (acceptedWords lat p is) p.engine = .next q.engine ∧
      (p.job = .idle → acceptedWords lat p is = [] → q.job = .idle) := by
  induction is generalizing p with
  | nil =>
    cases h
    exact ⟨rfl, fun hj _ => hj⟩
  | cons i is ih =>
    obtain ⟨u, hu, h⟩ := andThen_eq_next h
    obtain ⟨hr, hrs⟩ := List.forall_mem_cons.mp hr
    obtain ⟨hfirst, hjob⟩ := portTick_runs_acceptedWord hr hu
    obtain ⟨hrest, hjobs⟩ := ih hrs h
    have hws : acceptedWords lat p (i :: is) = (acceptedWord p i).toList ++ acceptedWords lat u is := by
      simp only [acceptedWords, hu]
    rw [hws]
    refine ⟨by rw [runWords_append, hfirst]; exact hrest, fun hj hnone => ?_⟩
    obtain ⟨hi, his⟩ := List.append_eq_nil_iff.mp hnone
    exact hjobs (hjob hj (by simpa using hi)) his

/-- Settles O50: the engine by `portRun_runs_acceptedWords`, its responses by `runWords_responses`; while a command is
outstanding one was accepted, and the last response, its own, is the one not delivered. -/
theorem portPairsCommandsAndResponses : Obligations.PortPairsCommandsAndResponses := by
  intro lat p q is hp hr h
  obtain ⟨hrun, hidle⟩ := portRun_runs_acceptedWords hr h
  obtain ⟨new, hnew, hlen⟩ := runWords_responses hrun
  refine ⟨hrun, ?_⟩
  rw [← hlen]
  cases hq : q.job with
  | idle => exact ⟨new, by simpa [delivered, hq] using hnew, by simp⟩
  | outstanding left =>
    have hne : new ≠ [] := fun hnil => by
      have hws : acceptedWords lat p is = [] := List.length_eq_zero_iff.mp (by rw [← hlen, hnil]; rfl)
      simp [hidle hp hws] at hq
    have hpos : 0 < new.length := List.length_pos_iff.mpr hne
    refine ⟨new.dropLast, ?_, ?_⟩
    · simp only [delivered, hq, hnew]
      exact List.dropLast_append_of_ne_nil hne
    · simp only [List.length_dropLast, reduceCtorEq, if_false]
      omega

end Sys2Proof.Machine

/-! PROOFS. The family 40_construction.md: the construction commands (R111 to R113), the seed mapping (R114), and
construction as a whole (R115). -/

namespace Sys2Proof.Machine

/-! ### The construction commands in `CFG` (40_construction.md R111 to R113) -/

theorem exec_setRule_of_cfg {s : State} (hp : s.phase = .cfg) (r : RuleTable) :
    exec (.setRule r) s = .next (respond .ok 0 { s with rule := some r, ruleValid := true }) := by
  rw [exec, execSetRule, whenLegal_legal (by decide) hp]

/-- A byte beyond the `N/8`-th is an error. -/
theorem exec_seedByte_of_full {s : State} (hp : s.phase = .cfg) (hc : s.seedCnt = s.cfg.seedBytes) (b : Byte) :
    exec (.seedByte b) s = .next (raise .protocolViolation s) := by
  rw [exec, execSeedByte, whenLegal_legal (by decide) hp, if_pos (by simpa [seedFull] using hc)]

/-- Below the full count a seed byte is stored in the next eight cells; no other cell changes. -/
theorem exec_seedByte_of_not_full {s : State} (hp : s.phase = .cfg) (hc : s.seedCnt < s.cfg.seedBytes) (b : Byte) :
    ∃ m : Ring, exec (.seedByte b) s = .next (respond .ok 0 { s with ring := m, seedCnt := s.seedCnt + 1 }) ∧
      ∀ i, m.read i = if 8 * s.seedCnt ≤ i ∧ i < 8 * s.seedCnt + 8 then some (b.getLsbD (i - 8 * s.seedCnt))
        else s.ring.read i := by
  have hN := s.cfg.N_eq_eight_mul_seedBytes
  obtain ⟨u, hu⟩ := writeSeedBits_answers (b := b) (left := 8) (j := 0) (s := s) (by omega)
  obtain ⟨hring, _, hread⟩ := writeSeedBits_cases hu
  have hnotFull : ¬seedFull s = true := by simpa [seedFull] using hc.ne
  refine ⟨u.ring, ?_, hread⟩
  rw [exec, execSeedByte, whenLegal_legal (by decide) hp, if_neg hnotFull, hu, andThen_next, hring]

theorem exec_start_of_noRule {s : State} (hp : s.phase = .cfg) (hv : s.ruleValid = false) :
    exec .start s = .next (raise .protocolViolation s) := by
  rw [exec, execStart, whenLegal_legal (by decide) hp, if_pos hv]

theorem exec_start_of_short {s : State} (hp : s.phase = .cfg) (hv : s.ruleValid = true)
    (hc : s.seedCnt < s.cfg.seedBytes) : exec .start s = .next (raise .seedTooShort s) := by
  rw [exec, execStart, whenLegal_legal (by decide) hp, if_neg (by simp [hv]), if_pos (by simpa [seedShort] using hc)]

theorem exec_start_of_seeded {s : State} (hp : s.phase = .cfg) (hv : s.ruleValid = true)
    (hc : s.cfg.seedBytes ≤ s.seedCnt) :
    exec .start s = .next (respond .ok 0 { s with phase := .run, gen := 0 }) := by
  rw [exec, execStart, whenLegal_legal (by decide) hp, if_neg (by simp [hv]), if_neg (by simpa [seedShort] using hc)]

/-- A command legal in `CFG` only is an error in `RUN`. -/
theorem exec_cfgCommand_of_run {i : Instr} {s : State} (hi : legalPhase i = some .cfg) (hp : s.phase = .run) :
    exec i s = .next (raise .protocolViolation s) :=
  exec_of_illegal (by simp [hp]) (by simp [hi, hp])

/-- Settles O18. -/
theorem setRuleLoadsTheRuleTable : Obligations.SetRuleLoadsTheRuleTable := fun _ r =>
  ⟨decode_cmdWord_one r, fun hp => exec_setRule_of_cfg hp r, exec_cfgCommand_of_run rfl, exec_of_failed _⟩

/-- Settles O19: the cells by the read law of `exec_seedByte_of_not_full`, inside and outside the eight written. -/
theorem seedByteStoresTheNextByte : Obligations.SeedByteStoresTheNextByte := by
  refine fun s b => ⟨decode_cmdWord_two, fun hp hc => ?_, fun herr => ?_, exec_of_failed _⟩
  · obtain ⟨m, hexec, hread⟩ := exec_seedByte_of_not_full hp hc b
    refine ⟨_, hexec, rfl, fun j hj => ?_, fun i hi => ?_⟩
    · rw [respond_ring, hread, if_pos (by omega), Nat.add_sub_cancel_left]
    · rw [respond_ring, hread, if_neg (by omega)]
  · obtain ⟨hp, hc⟩ | hp := herr
    · exact exec_seedByte_of_full hp hc b
    · exact exec_cfgCommand_of_run rfl hp

/-- Settles O20: one clause per branch of `START`, then the common checks. -/
theorem startEndsConstruction : Obligations.StartEndsConstruction := by
  refine fun s => ⟨decode_cmdWord_three, exec_start_of_seeded, exec_start_of_short, fun herr => ?_, exec_of_failed _⟩
  obtain ⟨hp, hv⟩ | hp := herr
  · exact exec_start_of_noRule hp hv
  · exact exec_cfgCommand_of_run rfl hp

/-! ### The rules and the seed bytes among commands (40_construction.md R115) -/

theorem rulesIn_append (is js : List Instr) : rulesIn (is ++ js) = rulesIn is ++ rulesIn js := List.filterMap_append
theorem seedBytesIn_append (is js : List Instr) : seedBytesIn (is ++ js) = seedBytesIn is ++ seedBytesIn js :=
  List.filterMap_append

@[simp] theorem rulesIn_concat_setRule (is : List Instr) (r : RuleTable) :
    rulesIn (is ++ [.setRule r]) = rulesIn is ++ [r] := rulesIn_append _ _
@[simp] theorem rulesIn_concat_seedByte (is : List Instr) (b : Byte) :
    rulesIn (is ++ [.seedByte b]) = rulesIn is := (rulesIn_append _ _).trans (List.append_nil _)
@[simp] theorem seedBytesIn_concat_setRule (is : List Instr) (r : RuleTable) :
    seedBytesIn (is ++ [.setRule r]) = seedBytesIn is := (seedBytesIn_append _ _).trans (List.append_nil _)
@[simp] theorem seedBytesIn_concat_seedByte (is : List Instr) (b : Byte) :
    seedBytesIn (is ++ [.seedByte b]) = seedBytesIn is ++ [b] := seedBytesIn_append _ _

@[simp] theorem seedBytesIn_map_seedByte (seed : List Byte) : seedBytesIn (seed.map .seedByte) = seed := by
  rw [seedBytesIn, List.filterMap_map]
  exact List.filterMap_some

/-! ### Construction before `START` (40_construction.md R114, R115) -/

/-- The cells of the seed bytes given so far hold their bits, cell `8*i + b` bit `b` of byte `i` (20_memory.md R52). -/
def HoldsSeed (m : Ring) (seed : List Byte) : Prop :=
  ∀ i < seed.length, ∀ b < 8, m.read (8 * i + b) = some ((seed.getD i 0).getLsbD b)

/-- One more seed byte, stored in the eight cells after those of the bytes before it. -/
theorem HoldsSeed.concat {m m' : Ring} {seed : List Byte} {x : Byte} (h : HoldsSeed m seed)
    (hread : ∀ i, m'.read i = if 8 * seed.length ≤ i ∧ i < 8 * seed.length + 8 then
      some (x.getLsbD (i - 8 * seed.length)) else m.read i) : HoldsSeed m' (seed ++ [x]) := by
  intro i hi b hb
  rw [List.length_append, List.length_singleton] at hi
  rw [hread]
  by_cases hlast : i = seed.length
  · subst hlast
    rw [if_pos (by omega), Nat.add_sub_cancel_left]
    simp
  · have hlt : i < seed.length := by omega
    rw [if_neg (by omega), h i hlt b hb, List.getD_append _ _ _ _ hlt]

/-- The state in `CFG` that construction commands `is` lead to from reset, every one answered `(OK, 0)`, but for the
ring. -/
def constructing (c : Config) (is : List Instr) (m : Ring) : State :=
  { State.resetOf c with
    ring := m
    rule := (rulesIn is).getLast?
    ruleValid := (rulesIn is).getLast?.isSome
    seedCnt := (seedBytesIn is).length
    responses := List.replicate is.length ⟨.ok, 0⟩ }

/-- `SET_RULE` and `SEED_BYTE` commands in any order, with at most `N/8` seed bytes, are all accepted: the last rule is
held, and the cells hold the seed bytes. -/
theorem runInstrs_constructing (c : Config) {is : List Instr}
    (hcmd : ∀ i ∈ is, (∃ r, i = .setRule r) ∨ ∃ b, i = .seedByte b) (hlen : (seedBytesIn is).length ≤ c.seedBytes) :
    ∃ m, runInstrs is (State.resetOf c) = .next (constructing c is m) ∧ HoldsSeed m (seedBytesIn is) := by
  induction is using List.reverseRecOn with
  | nil => exact ⟨[], rfl, fun i hi => absurd hi (Nat.not_lt_zero i)⟩
  | append_singleton is i ih =>
    obtain ⟨hcmds, hi⟩ := List.forall_mem_append.mp hcmd
    obtain ⟨r, rfl⟩ | ⟨b, rfl⟩ := hi i List.mem_cons_self
    · rw [seedBytesIn_concat_setRule] at hlen ⊢
      obtain ⟨m, hrun, hm⟩ := ih hcmds hlen
      refine ⟨m, ?_, hm⟩
      rw [runInstrs_append, hrun, andThen_next, runInstrs, exec_setRule_of_cfg rfl]
      simp [runInstrs, constructing, respond, List.replicate_succ']
    · simp only [seedBytesIn_concat_seedByte, List.length_append, List.length_singleton] at hlen ⊢
      obtain ⟨m, hrun, hm⟩ := ih hcmds (by omega)
      obtain ⟨m', hexec, hread⟩ := exec_seedByte_of_not_full (s := constructing c is m) rfl hlen b
      refine ⟨m', ?_, hm.concat hread⟩
      rw [runInstrs_append, hrun, andThen_next, runInstrs, hexec]
      simp [runInstrs, constructing, respond, List.replicate_succ']

/-- Settles O44: `runInstrs_constructing` up to `START`, which finds a rule and `N/8` seed bytes. -/
theorem constructionAsAWhole : Obligations.ConstructionAsAWhole := by
  rintro c r seed is hcmd rfl hlen hrule
  obtain ⟨m, hrun, hm⟩ := runInstrs_constructing c hcmd hlen.le
  have hvalid : (constructing c is m).ruleValid = true := by simp [constructing, hrule]
  have hstart := exec_start_of_seeded (s := constructing c is m) rfl hvalid hlen.ge
  refine ⟨respond .ok 0 { constructing c is m with phase := .run, gen := 0 }, ?_, rfl, rfl, hrule, hvalid, hlen,
    hlen ▸ hm, List.replicate_succ'.symm⟩
  rw [runInstrs_append, hrun, andThen_next, runInstrs, hstart, andThen_next, runInstrs]

/-! ### The seed mapping and its inverse (40_construction.md R114) -/

/-- The number read off the low `k` bits of `x`, bit `b` weighing `2^b`. -/
theorem sum_testBit_shiftLeft (x k : Nat) :
    ((List.range k).map fun b => (x.testBit b).toNat <<< b).sum = x % 2 ^ k := by
  induction k with
  | zero => simp [Nat.mod_one]
  | succ k ih =>
    rw [List.range_succ, List.map_append, List.sum_append, ih, List.map_singleton, List.sum_singleton,
      Nat.toNat_testBit, Nat.shiftLeft_eq, Nat.mul_comm, Nat.mod_pow_succ]

/-- The inverse mapping gives back a byte whose bits the eight cells hold. -/
theorem seedByteOf_eq_toNat {R : Nat → Bool} {i : Nat} {x : Byte} (h : ∀ b < 8, R (8 * i + b) = x.getLsbD b) :
    seedByteOf R i = x.toNat := by
  have hbits : seedByteOf R i = ((List.range 8).map fun b => (x.toNat.testBit b).toNat <<< b).sum :=
    congrArg List.sum <| List.map_congr_left fun b hb => by rw [h b (List.mem_range.mp hb), BitVec.getLsbD]
  rw [hbits, sum_testBit_shiftLeft, Nat.mod_eq_of_lt x.isLt]

/-- The seed mapping takes `seed` to the ring value `R`: cell `8*i + b` is bit `b` of byte `i`. -/
def IsSeedOf (seed : List Byte) (R : Nat → Bool) : Prop :=
  ∀ i < seed.length, ∀ b < 8, R (8 * i + b) = (seed.getD i 0).getLsbD b

/-- The ring value of a seed. -/
def ringOfSeed (seed : List Byte) (j : Nat) : Bool := (seed.getD (j / 8) 0).getLsbD (j % 8)

theorem isSeedOf_ringOfSeed (seed : List Byte) : IsSeedOf seed (ringOfSeed seed) := by
  intro i _ b hb
  rw [ringOfSeed, Nat.mul_add_div (by decide), Nat.div_eq_of_lt hb, Nat.mul_add_mod, Nat.mod_eq_of_lt hb, Nat.add_zero]

/-- The seed bytes of a ring value. -/
def seedOfRing (c : Config) (R : Nat → Bool) : List Byte :=
  (List.range c.seedBytes).map fun i => BitVec.ofFnLE fun b : Fin 8 => R (8 * i + b)

@[simp] theorem length_seedOfRing (c : Config) (R : Nat → Bool) : (seedOfRing c R).length = c.seedBytes := by
  simp [seedOfRing]

theorem isSeedOf_seedOfRing (c : Config) (R : Nat → Bool) : IsSeedOf (seedOfRing c R) R := by
  intro i hi b hb
  rw [length_seedOfRing] at hi
  simp [seedOfRing, hi, hb]

/-- A full seed gives every cell of the ring its bit. -/
theorem HoldsSeed.holdsRing {s : State} {seed : List Byte} (h : HoldsSeed s.ring seed)
    (hlen : seed.length = s.cfg.seedBytes) {R : Nat → Bool} (hR : IsSeedOf seed R) : HoldsRing s R := by
  intro j hj
  have hN := s.cfg.N_eq_eight_mul_seedBytes
  have hi : j / 8 < seed.length := by omega
  have hb : j % 8 < 8 := Nat.mod_lt _ (by decide)
  have hcell : s.ring.read (8 * (j / 8) + j % 8) = some (R (8 * (j / 8) + j % 8)) := by rw [h _ hi _ hb, hR _ hi _ hb]
  rwa [Nat.div_add_mod] at hcell

/-- Feeding a full seed after reset makes its ring value. -/
theorem runInstrs_seed_holdsRing (c : Config) {seed : List Byte} (hlen : seed.length = c.seedBytes) {R : Nat → Bool}
    (hR : IsSeedOf seed R) :
    ∃ t, runInstrs (seed.map .seedByte) (State.resetOf c) = .next t ∧ HoldsRing t R := by
  have hcmd : ∀ i ∈ seed.map Instr.seedByte, (∃ r, i = .setRule r) ∨ ∃ b, i = .seedByte b := by simp
  obtain ⟨m, hrun, hm⟩ := runInstrs_constructing c hcmd (by simp [hlen])
  rw [seedBytesIn_map_seedByte] at hm
  exact ⟨_, hrun, HoldsSeed.holdsRing (s := constructing c _ m) hm hlen hR⟩

/-- Settles O43: both directions by `runInstrs_seed_holdsRing`, with the ring value of the seed and with the seed bytes of
the ring value. -/
theorem seedMappingRoundTrip : Obligations.SeedMappingRoundTrip := by
  refine ⟨fun c seed hlen => ?_, fun c R => ?_⟩
  · have hseed := isSeedOf_ringOfSeed seed
    obtain ⟨t, hrun, hR⟩ := runInstrs_seed_holdsRing c hlen hseed
    refine ⟨t, ringOfSeed seed, hrun, hR, fun i hi => ?_⟩
    have hcell := hseed i (hlen ▸ hi)
    exact ⟨seedByteOf_eq_toNat hcell, hcell⟩
  · have hlen := length_seedOfRing c R
    obtain ⟨t, hrun, hR⟩ := runInstrs_seed_holdsRing c hlen (isSeedOf_seedOfRing c R)
    exact ⟨seedOfRing c R, t, hlen, hrun, hR⟩

end Sys2Proof.Machine

/-! PROOFS. The family 41_ring_update.md: the neighbourhood (R131, R138), the next cell and the step (R132 to R134), the
rules with a closed form (R139), and the buffered forms of the step (R140). -/

namespace Sys2Proof.Machine

/-! ### The neighbourhood (41_ring_update.md R131, R138) -/

theorem Offset.toInt_injective {d d' : Offset} (h : d.toInt = d'.toInt) : d = d' := by
  cases d <;> cases d' <;> simp [Offset.toInt] at h ⊢

/-- Settles O10: two offsets with the same circular index differ by a multiple of `N`, which is at least 8, and by at
most 4. -/
theorem fiveNeighbourCellsAreDistinct : Obligations.FiveNeighbourCellsAreDistinct := by
  intro c i _ d d' h
  have hN := c.eight_le_N
  have hmod : (i + d.toInt) % (c.N : Int) = (i + d'.toInt) % c.N := by
    rw [← wrap_eq_emod, ← wrap_eq_emod, h]
  have hdvd : (c.N : Int) ∣ (i + d'.toInt) - (i + d.toInt) := Int.ModEq.dvd hmod
  obtain ⟨hlo, hhi⟩ := d.toInt_bounds
  obtain ⟨hlo', hhi'⟩ := d'.toInt_bounds
  have hzero := Int.eq_zero_of_abs_lt_dvd hdvd (abs_lt.mpr (by omega))
  exact Offset.toInt_injective (by omega)

/-- The neighbourhood integer of five cells, the first in bit 4. -/
def packNbh (l2 l1 x r1 r2 : Bool) : Nbh :=
  BitVec.ofBool l2 ++ BitVec.ofBool l1 ++ BitVec.ofBool x ++ BitVec.ofBool r1 ++ BitVec.ofBool r2

/-- The neighbourhood integer of a cell of the ring, whose middle index needs no wrapping. -/
theorem nbh_eq_packNbh (c : Config) (R : Nat → Bool) {i : Nat} (hi : i < c.N) :
    nbh c R i =
      packNbh (R (wrap c i .left2)) (R (wrap c i .left1)) (R i) (R (wrap c i .right1)) (R (wrap c i .right2)) := by
  rw [nbh, wrap_self c hi, packNbh]

/-- Appending one bit after another shifts the bits before it by one place each. -/
theorem toNat_packNbh (l2 l1 x r1 r2 : Bool) : (packNbh l2 l1 x r1 r2).toNat =
    l2.toNat <<< 4 ||| l1.toNat <<< 3 ||| x.toNat <<< 2 ||| r1.toNat <<< 1 ||| r2.toNat := by
  simp only [packNbh, BitVec.toNat_append, BitVec.toNat_ofBool, Nat.shiftLeft_or_distrib, ← Nat.shiftLeft_add]

/-- Settles O12: the indices of `wrap` are the masked sums by definition. -/
theorem neighbourhoodIntegerPacksFiveCells : Obligations.NeighbourhoodIntegerPacksFiveCells := by
  intro c R i hi
  rw [nbh_eq_packNbh c R hi, toNat_packNbh]
  rfl

/-! ### The next cell and the step (41_ring_update.md R132 to R134) -/

/-- Settles O13: a bit of a number is what is left of it after a shift and a mask. -/
theorem nextCellIsRuleBit : Obligations.NextCellIsRuleBit := by
  intro c r R i
  show (r.toNat.testBit (nbh c R i).toNat).toNat = _
  rw [Nat.toNat_testBit, Nat.shiftRight_eq_div_pow, Nat.and_one_is_mod]

/-- Settles O14: the step of a running state is `stepped`, whose ring holds the next
generation of the old ring and nothing else. -/
theorem stepMakesNextGenerationFromOldRing : Obligations.StepMakesNextGenerationFromOldRing := by
  intro s r R h
  exact ⟨stepped r R s, ringStep_of_running h, rfl, stepped_holds r R s,
    fun _ hi => Ring.read_eq_none_of_le h.stepped.wellFormed hi⟩

/-! ### Rules with a closed form (41_ring_update.md R139) -/

/-- Bit `k` of the rule table is `f` of the five bits of `k`. -/
abbrev IsTableOf (r : RuleTable) (f : Bool → Bool → Bool → Bool → Bool → Bool) : Prop :=
  ∀ l2 l1 x r1 r2, ruleBit r (packNbh l2 l1 x r1 r2) = f l2 l1 x r1 r2

/-- Under the table of `f` the next state of a cell is `f` of its five neighbours. -/
theorem generationStep_of_isTableOf {r : RuleTable} {f : Bool → Bool → Bool → Bool → Bool → Bool} (hf : IsTableOf r f)
    (c : Config) (R : Nat → Bool) {i : Nat} (hi : i < c.N) : generationStep c r R i =
      f (R (wrap c i .left2)) (R (wrap c i .left1)) (R i) (R (wrap c i .right1)) (R (wrap c i .right2)) := by
  rw [generationStep, nbh_eq_packNbh c R hi, hf]

/-- Settles O15: each rule number is the table of its row's closed form, which is checked on the 32 neighbourhoods. -/
theorem closedFormRuleNumbers : Obligations.ClosedFormRuleNumbers := by
  intro c R i hi
  have step {r f} (hf : IsTableOf r f) := generationStep_of_isTableOf hf c R hi
  exact ⟨step (f := fun _ _ _ _ _ => false) (by decide),
    step (f := fun _ _ _ _ _ => true) (by decide),
    step (f := fun _ _ x _ _ => x) (by decide),
    step (f := fun _ l1 _ _ _ => l1) (by decide),
    step (f := fun l2 _ _ _ _ => l2) (by decide),
    step (f := fun _ _ _ r1 _ => r1) (by decide),
    step (f := fun _ _ _ _ r2 => r2) (by decide),
    step (f := fun l2 l1 x r1 r2 => l2 ^^ l1 ^^ x ^^ r1 ^^ r2) (by decide),
    step (f := fun _ l1 x r1 _ => l1 ^^ (x || r1)) (by decide),
    step (f := fun l2 l1 x r1 r2 => l2 && !l1 && !x && !r1 && !r2) (by decide),
    step (f := fun l2 l1 x r1 r2 => !l2 && !l1 && !x && !r1 && r2) (by decide)⟩

/-! ### The buffered steps (41_ring_update.md R140) -/

/-- Every cell written holds the next state computed from the temporary, whenever it was written; no other cell
changes. -/
theorem read_writeCells (c : Config) (r : RuleTable) (tmp : Nat → Bool) (order : List Nat) (m : Ring) (j : Nat) :
    (writeCells c r tmp order m).read j = if j ∈ order then some (generationStep c r tmp j) else m.read j := by
  induction order generalizing m with
  | nil => rfl
  | cons i is ih =>
    rw [writeCells, ih, Ring.read_write]
    by_cases hmem : j ∈ is
    · simp [hmem]
    · by_cases hj : j = i <;> simp [hmem, hj]

theorem writeCells_wellFormed (c : Config) (r : RuleTable) (tmp : Nat → Bool) {order : List Nat} {m : Ring}
    (horder : ∀ i ∈ order, i < c.N) (hm : m.WellFormed c.N) : (writeCells c r tmp order m).WellFormed c.N := by
  induction order generalizing m with
  | nil => exact hm
  | cons i is ih =>
    obtain ⟨hi, his⟩ := List.forall_mem_cons.mp horder
    exact ih his (Ring.write_wellFormed hm hi _)

/-- Written in any order, the cells make the next generation of the temporary. -/
theorem writeCells_of_perm (c : Config) (r : RuleTable) (tmp : Nat → Bool) {order : List Nat} {m : Ring}
    (horder : order.Perm (List.range c.N)) (hm : m.WellFormed c.N) :
    writeCells c r tmp order m = Ring.ofCells c.N (generationStep c r tmp) := by
  have hmem : ∀ i, i ∈ order ↔ i < c.N := fun i => horder.mem_iff.trans List.mem_range
  refine Ring.ext_read (writeCells_wellFormed c r tmp (fun i => (hmem i).mp) hm).1 (Ring.ofCells_wellFormed _ _).1
    fun i => ?_
  simp only [read_writeCells, Ring.read_ofCells, hmem]
  split
  · rfl
  · exact Ring.read_eq_none_of_le hm (Nat.le_of_not_lt ‹_›)

/-- The snapshot of a running state answers, and its next generation is the ring of the step. -/
theorem Running.snapshot {s : State} {r : RuleTable} {R : Nat → Bool} (h : Running s r R) :
    ∃ old, Ring.snapshot s.cfg.N s.ring = some old ∧
      Ring.ofCells s.cfg.N (generationStep s.cfg r old.testBit) = (Machine.stepped r R s).ring := by
  obtain ⟨old, hold, hR⟩ := Ring.snapshot_of_read h.wellFormed h.holds
  exact ⟨old, hold, Ring.ofCells_congr fun i _ => generationStep_congr s.cfg r hR i⟩

/-- The two-buffer step leaves the next generation in the buffer that was inactive, and makes it the active one. -/
theorem doubleBufferedStep_of_snapshot {c : Config} {r : RuleTable} {b : Buffers} {old : Nat}
    (h : Ring.snapshot c.N (activeBuffer b) = some old) :
    ∃ b', doubleBufferedStep c r b = some b' ∧ b'.sel = !b.sel ∧
      activeBuffer b' = Ring.ofCells c.N (generationStep c r old.testBit) := by
  obtain ⟨buf0, buf1, sel⟩ := b
  rw [doubleBufferedStep, h]
  cases sel
  · exact ⟨_, rfl, rfl, rfl⟩
  · exact ⟨_, rfl, rfl, rfl⟩

/-- Settles O17: both forms read the snapshot of the active ring and write its next generation, the one in any order
(`writeCells_of_perm`), the other into the inactive buffer (`doubleBufferedStep_of_snapshot`). -/
theorem bufferedStepsEqualTheStep : Obligations.BufferedStepsEqualTheStep := by
  intro s r R h
  obtain ⟨old, hold, hring⟩ := h.snapshot
  refine ⟨(stepped r R s).ring, ringStep_of_running h, fun order horder => ?_, fun b hb => ?_⟩
  · rw [temporaryStep, hold, Option.map_some, writeCells_of_perm _ _ _ horder h.wellFormed, hring]
  · rw [← hring]
    exact doubleBufferedStep_of_snapshot (hb ▸ hold)

end Sys2Proof.Machine

/-! PROOFS. The family 42_extraction.md: rotation (R158), the extraction commands (R151, R152), their lists (R154, R156),
the micro-step form (R153), and no read without advance (R155). -/

namespace Sys2Proof.Machine

/-! ### Rotating the ring (42_extraction.md R158, 41_ring_update.md R133) -/

/-- The ring value rotated by `k` cells: its cell `j` is what cell `j + k` was. -/
def rotate (c : Config) (k : Nat) (R : Nat → Bool) : Nat → Bool := fun j => R ((j + k) % c.N)

/-- Going `d` cells on and then `k` cells on is the same in either order. -/
theorem wrap_add_mod (c : Config) (i k : Nat) (d : Offset) : (wrap c i d + k) % c.N = wrap c ((i + k) % c.N) d := by
  apply Int.natCast_inj.mp
  push_cast
  rw [wrap_eq_emod, wrap_eq_emod]
  push_cast
  rw [Int.emod_add_emod, Int.emod_add_emod, add_right_comm]

theorem generationStep_rotate (c : Config) (r : RuleTable) (k : Nat) (R : Nat → Bool) :
    generationStep c r (rotate c k R) = rotate c k (generationStep c r R) := by
  funext i
  simp only [generationStep, nbh, rotate, wrap_add_mod]

theorem generation_rotate (c : Config) (r : RuleTable) (k : Nat) (R : Nat → Bool) (t : Nat) :
    generation c r (rotate c k R) t = rotate c k (generation c r R t) := by
  induction t with
  | zero => rfl
  | succ t ih => rw [generation, ih, generationStep_rotate, generation]

/-- Settles O16: a step commutes with rotation because every cell has the same neighbourhood (`generationStep_rotate`), and
so does every generation, by induction. -/
theorem generationsCommuteWithRotation : Obligations.GenerationsCommuteWithRotation :=
  fun c r R k t i _ => congrFun (generation_rotate c r k R t) i

/-! ### The bit stream (42_extraction.md R156) -/

theorem generation_generation (c : Config) (r : RuleTable) (R : Nat → Bool) (k t : Nat) :
    generation c r (generation c r R k) t = generation c r R (k + t) := by
  induction t with
  | zero => rfl
  | succ t ih => exact congrArg (generationStep c r) ih

/-- The stream of a later generation is the rest of the stream. -/
theorem streamBit_generation (c : Config) (r : RuleTable) (R : Nat → Bool) (k t : Nat) :
    streamBit c r (generation c r R k) t = streamBit c r R (k + t) :=
  congrFun (generation_generation c r R k t) c.TAP

/-- The stream bits `b1` to `bk` as a byte, `b1` in bit 0 (42_extraction.md R157). -/
def streamDatum (c : Config) (r : RuleTable) (R : Nat → Bool) (k : Nat) : Byte :=
  (List.range k).foldl (fun acc n => packBit acc n (streamBit c r R (n + 1))) 0

theorem streamDatum_succ (c : Config) (r : RuleTable) (R : Nat → Bool) (k : Nat) :
    streamDatum c r R (k + 1) = packBit (streamDatum c r R k) k (streamBit c r R (k + 1)) := by
  rw [streamDatum, List.range_succ, List.foldl_append]
  rfl

theorem streamDatum_one (c : Config) (r : RuleTable) (R : Nat → Bool) :
    streamDatum c r R 1 = (BitVec.ofBool (streamBit c r R 1)).setWidth 8 := by
  simp [streamDatum, packBit]

theorem streamDatum_one_eq_ofNat (c : Config) (r : RuleTable) (R : Nat → Bool) :
    streamDatum c r R 1 = BitVec.ofNat 8 (streamBit c r R 1).toNat := by
  rw [streamDatum_one]
  cases streamBit c r R 1 <;> rfl

theorem getLsbD_streamDatum (c : Config) (r : RuleTable) (R : Nat → Bool) {k i : Nat} (hk : k ≤ 8) (hi : i < k) :
    (streamDatum c r R k).getLsbD i = streamBit c r R (i + 1) := by
  have h := getLsbD_packed (fun n => streamBit c r R (n + 1)) k i
  simp only [Nat.zero_add, hi, hi.trans_le hk, decide_true, Bool.true_and] at h
  exact h

/-- Eight bits make the byte in which bit `k` weighs `2^k`. -/
theorem toNat_streamDatum (c : Config) (r : RuleTable) (R : Nat → Bool) :
    (streamDatum c r R 8).toNat = ((List.range 8).map fun k => 2 ^ k * (streamBit c r R (k + 1)).toNat).sum := by
  have h : seedByteOf (fun n => streamBit c r R (n + 1)) 0 = (streamDatum c r R 8).toNat :=
    seedByteOf_eq_toNat fun b hb => by rw [getLsbD_streamDatum c r R le_rfl hb, Nat.mul_zero, Nat.zero_add]
  simp only [seedByteOf, Nat.mul_zero, Nat.zero_add] at h
  simp only [← h, Nat.shiftLeft_eq, Nat.mul_comm (2 ^ _)]

/-! ### The state after extraction (42_extraction.md R151, R152) -/

/-- A canonical ring that holds `R` is the list of the cells of `R`. -/
theorem Running.ring_eq {s : State} {r : RuleTable} {R : Nat → Bool} (h : Running s r R) :
    s.ring = Ring.ofCells s.cfg.N R := by
  refine Ring.ext_read h.wellFormed.1 (Ring.ofCells_wellFormed _ _).1 fun i => ?_
  rw [Ring.read_ofCells]
  split
  case isTrue hi => exact h.holds i hi
  case isFalse hi => exact Ring.read_eq_none_of_le h.wellFormed (Nat.le_of_not_lt hi)

/-- The state `k` generations after one whose ring holds `R`, the data `ds` having been answered on the way. -/
def extracted (r : RuleTable) (R : Nat → Bool) (k : Nat) (ds : List Byte) (s : State) : State :=
  { s with
    ring := Ring.ofCells s.cfg.N (generation s.cfg r R k)
    gen := s.gen + k
    responses := s.responses ++ ds.map fun d => ⟨.ok, d⟩ }

@[simp] theorem extracted_responses (r : RuleTable) (R : Nat → Bool) (k : Nat) (ds : List Byte) (s : State) :
    (extracted r R k ds s).responses = s.responses ++ ds.map fun d => ⟨.ok, d⟩ := rfl

theorem Running.extracted {s : State} {r : RuleTable} {R : Nat → Bool} (h : Running s r R) (k : Nat) (ds : List Byte) :
    Running (extracted r R k ds s) r (generation s.cfg r R k) :=
  ⟨h.phase, h.rule, Ring.ofCells_wellFormed _ _, fun i hi => by
    rw [Machine.extracted, Ring.read_ofCells]
    exact if_pos hi⟩

theorem Running.extracted_zero {s : State} {r : RuleTable} {R : Nat → Bool} (h : Running s r R) :
    Machine.extracted r R 0 [] s = s := by
  simp [Machine.extracted, generation, ← h.ring_eq]

theorem extracted_extracted (r : RuleTable) (R : Nat → Bool) (k l : Nat) (ds es : List Byte) (s : State) :
    extracted r (generation s.cfg r R k) l es (extracted r R k ds s) = extracted r R (k + l) (ds ++ es) s := by
  simp [extracted, generation_generation, Nat.add_assoc]

theorem respond_extracted (r : RuleTable) (R : Nat → Bool) (k : Nat) (d : Byte) (s : State) :
    respond .ok d (extracted r R k [] s) = extracted r R k [d] s := by
  simp [respond, extracted]

theorem Running.stepAndTap_extracted {s : State} {r : RuleTable} {R : Nat → Bool} (h : Running s r R) (k : Nat) :
    stepAndTap (Machine.extracted r R k [] s) = .next (Machine.extracted r R (k + 1) [] s, streamBit s.cfg r R (k + 1)) :=
  stepAndTap_of_running (h.extracted k [])

theorem Running.gatherBits_eq {s : State} {r : RuleTable} {R : Nat → Bool} (h : Running s r R) (k : Nat) :
    gatherBits s 0 k 0 = .next (Machine.extracted r R k [] s, streamDatum s.cfg r R k) := by
  obtain ⟨t, hg, ht, hrun⟩ := gatherBits_of_running h 0 k 0
  have hcfg : t.cfg = s.cfg := by rw [ht]
  have hext : t = Machine.extracted r R k [] s := by
    rw [ht, hrun.ring_eq, hcfg]
    simp [Machine.extracted]
  simpa only [streamDatum, ← hext, Nat.zero_add] using hg

/-! ### The extraction commands (42_extraction.md R151, R152) -/

/-- The stream bits a command of extraction takes (42_extraction.md R156). -/
def bitsAsked (i : Instr) : Nat := if i = .nextByte then 8 else 1

/-- `NEXT_BIT` and `NEXT_BYTE` in `RUN`: the generations of the bits asked for, answered with these bits. -/
theorem exec_extraction {i : Instr} (hi : i = .nextBit ∨ i = .nextByte) {s : State} {r : RuleTable} {R : Nat → Bool}
    (h : Running s r R) :
    exec i s = .next (extracted r R (bitsAsked i) [streamDatum s.cfg r R (bitsAsked i)] s) := by
  obtain rfl | rfl := hi
  · have htap := h.stepAndTap_extracted 0
    rw [h.extracted_zero] at htap
    rw [exec, execNextBit, whenLegal_legal (by decide) h.phase, htap, andThen_next, ← streamDatum_one,
      respond_extracted]
    rfl
  · rw [exec, execNextByte, whenLegal_legal (by decide) h.phase, h.gatherBits_eq, andThen_next, respond_extracted]
    rfl

/-- A command legal in `RUN` only is an error in `CFG`. -/
theorem exec_runCommand_of_cfg {i : Instr} {s : State} (hi : legalPhase i = some .run) (hp : s.phase = .cfg) :
    exec i s = .next (raise .protocolViolation s) :=
  exec_of_illegal (by simp [hp]) (by simp [hi, hp])

/-- Settles O21: `exec_extraction` with one bit asked for, whose datum is the bit zero-extended. -/
theorem nextBitStepsThenReturnsTheTap : Obligations.NextBitStepsThenReturnsTheTap := by
  refine fun s => ⟨decode_cmdWord_four, fun r R h => ?_, exec_runCommand_of_cfg rfl, exec_of_failed _⟩
  have hrun := h.extracted 1 [streamDatum s.cfg r R 1]
  refine ⟨_, exec_extraction (.inl rfl) h, ?_, hrun.holds, fun i => Ring.read_eq_none_of_le hrun.wellFormed⟩
  have hdatum : streamDatum s.cfg r R 1 = if generationStep s.cfg r R (s.cfg.N / 2) then 0x01#8 else 0x00#8 := by
    rw [streamDatum_one]
    show (BitVec.ofBool (generationStep s.cfg r R (s.cfg.N / 2))).setWidth 8 = _
    cases generationStep s.cfg r R (s.cfg.N / 2) <;> rfl
  rw [← hdatum]
  rfl

/-- Settles O22: `exec_extraction` with eight bits asked for, bit `j` of its datum by `getLsbD_streamDatum`. -/
theorem nextBytePacksEightTaps : Obligations.NextBytePacksEightTaps := by
  refine fun s => ⟨decode_cmdWord_five, fun r R h => ?_, exec_runCommand_of_cfg rfl, exec_of_failed _⟩
  have hrun := h.extracted 8 [streamDatum s.cfg r R 8]
  exact ⟨_, _, exec_extraction (.inr rfl) h, rfl, fun j hj => getLsbD_streamDatum _ _ _ le_rfl hj, hrun.holds,
    fun i => Ring.read_eq_none_of_le hrun.wellFormed⟩

/-! ### Lists of extraction commands (42_extraction.md R154, R156) -/

/-- The stream bits a list of commands takes. -/
def bitsAskedBy (is : List Instr) : Nat := (is.map bitsAsked).sum

/-- The data a list of commands answers, from a ring that holds `R`. -/
def extractionData (c : Config) (r : RuleTable) : List Instr → (Nat → Bool) → List Byte
  | [], _ => []
  | i :: is, R => streamDatum c r R (bitsAsked i) :: extractionData c r is (generation c r R (bitsAsked i))

theorem runInstrs_extraction {is : List Instr} (his : ∀ i ∈ is, i = .nextBit ∨ i = .nextByte) {s : State}
    {r : RuleTable} {R : Nat → Bool} (h : Running s r R) :
    runInstrs is s = .next (extracted r R (bitsAskedBy is) (extractionData s.cfg r is R) s) := by
  induction is generalizing s R with
  | nil => exact congrArg Host.Outcome.next h.extracted_zero.symm
  | cons i is ih =>
    obtain ⟨hi, his⟩ := List.forall_mem_cons.mp his
    rw [runInstrs, exec_extraction hi h, andThen_next, ih his (h.extracted _ _), extracted_extracted]
    rfl

theorem bitsTaken_streamDatum {i : Instr} (hi : i = .nextBit ∨ i = .nextByte) (c : Config) (r : RuleTable)
    (R : Nat → Bool) : bitsTaken i (streamDatum c r R (bitsAsked i)) =
      (List.range (bitsAsked i)).map fun n => streamBit c r R (n + 1) := by
  obtain rfl | rfl := hi
  · exact congrArg (fun b => [b]) (getLsbD_streamDatum c r R (by decide) Nat.one_pos)
  · exact List.map_congr_left fun n hn => getLsbD_streamDatum c r R le_rfl (List.mem_range.mp hn)

theorem length_extractionData (c : Config) (r : RuleTable) (is : List Instr) (R : Nat → Bool) :
    (extractionData c r is R).length = is.length := by
  induction is generalizing R with
  | nil => rfl
  | cons i is ih => exact congrArg (· + 1) (ih _)

/-- The bits in the data are those of the stream, in order. -/
theorem flatten_bitsTaken_extractionData (c : Config) (r : RuleTable) {is : List Instr}
    (his : ∀ i ∈ is, i = .nextBit ∨ i = .nextByte) (R : Nat → Bool) :
    (List.zipWith bitsTaken is (extractionData c r is R)).flatten =
      (List.range (bitsAskedBy is)).map fun n => streamBit c r R (n + 1) := by
  induction is generalizing R with
  | nil => rfl
  | cons i is ih =>
    obtain ⟨hi, his⟩ := List.forall_mem_cons.mp his
    have hk : bitsAskedBy (i :: is) = bitsAsked i + bitsAskedBy is := rfl
    rw [extractionData, List.zipWith_cons_cons, List.flatten_cons, bitsTaken_streamDatum hi, ih his, hk, List.range_add,
      List.map_append, List.map_map]
    simp only [streamBit_generation, Function.comp_def, Nat.add_assoc]

/-- Settles O48: the state and the data are those of `runInstrs_extraction`, the bits in the data those of the stream by
`flatten_bitsTaken_extractionData`. -/
theorem mixedExtractionTakesTheStreamInOrder : Obligations.MixedExtractionTakesTheStreamInOrder := by
  intro s r G0 is h his
  exact ⟨_, extractionData s.cfg r is G0, bitsAskedBy is, runInstrs_extraction his h, length_extractionData _ _ _ _, rfl,
    rfl, flatten_bitsTaken_extractionData _ _ his _, rfl, h.extracted _ _⟩

theorem bitsAskedBy_replicate_nextBit (k : Nat) : bitsAskedBy (List.replicate k .nextBit) = k := by
  simp [bitsAskedBy, bitsAsked]

/-- `k` `NEXT_BIT`s answer the bits `b1` to `bk`, one each. -/
theorem extractionData_replicate_nextBit (c : Config) (r : RuleTable) (k : Nat) (R : Nat → Bool) :
    extractionData c r (List.replicate k .nextBit) R =
      (List.range k).map fun n => BitVec.ofNat 8 (streamBit c r R (n + 1)).toNat := by
  induction k generalizing R with
  | zero => rfl
  | succ k ih =>
    rw [List.replicate_succ, extractionData, ih, List.range_succ_eq_map, List.map_cons, List.map_map]
    refine congrArg₂ List.cons (streamDatum_one_eq_ofNat c r R) (List.map_congr_left fun n _ => ?_)
    rw [streamBit_generation, Nat.add_comm (bitsAsked _)]
    rfl

/-- Settles O46: both sides are `extracted` with eight generations, so their states differ in the data answered only; the
data hold the same stream bits, packed (`toNat_streamDatum`) and one by one (`extractionData_replicate_nextBit`). -/
theorem nextByteIsEightNextBits : Obligations.NextByteIsEightNextBits := by
  intro s r R h
  have hbits := runInstrs_extraction (is := List.replicate 8 .nextBit) (fun i hi => .inl (List.eq_of_mem_replicate hi)) h
  rw [bitsAskedBy_replicate_nextBit, extractionData_replicate_nextBit] at hbits
  refine ⟨_, _, _, fun n => streamBit s.cfg r R (n + 1), exec_extraction (.inr rfl) h, hbits, rfl, ?_, rfl,
    toNat_streamDatum _ _ _⟩
  rw [extracted_responses, List.map_map]
  rfl

/-! ### The micro-step form (42_extraction.md R153) -/

theorem microRun_succ (k : Nat) (m : MicroState) : microRun (k + 1) m = andThen (microRun k m) microStep := by
  induction k generalizing m with
  | zero =>
    show andThen (microStep m) (microRun 0) = microStep m
    cases microStep m <;> rfl
  | succ k ih =>
    show andThen (microStep m) (microRun (k + 1)) = andThen (andThen (microStep m) (microRun k)) microStep
    rw [andThen_assoc]
    exact congrArg (andThen (microStep m)) (funext ih)

/-- `k` micro-steps into the `NEXT_BYTE` of an engine whose ring holds `R`: `k` generations, their taps in `ACC`; the
response and the end of `busy` come with the eighth. -/
def microExtracted (r : RuleTable) (R : Nat → Bool) (k : Nat) (s : State) : MicroState where
  engine := extracted r R k (if k = 8 then [streamDatum s.cfg r R k] else []) s
  acc := streamDatum s.cfg r R k
  bitCnt := k
  busy := k ≠ 8

theorem microExtracted_of_lt (r : RuleTable) (R : Nat → Bool) {k : Nat} (hk : k < 8) (s : State) :
    microExtracted r R k s = ⟨extracted r R k [] s, streamDatum s.cfg r R k, k, true⟩ := by
  simp [microExtracted, hk.ne]

/-- A micro-step is a step and a tap (`Running.stepAndTap_extracted`); only the eighth answers. -/
theorem microStep_microExtracted {s : State} {r : RuleTable} {R : Nat → Bool} (h : Running s r R) {k : Nat}
    (hk : k < 8) : microStep (microExtracted r R k s) = .next (microExtracted r R (k + 1) s) := by
  rw [microExtracted_of_lt r R hk, microStep, if_pos rfl, h.stepAndTap_extracted, andThen_next]
  simp only [← streamDatum_succ, Config.BITS_PER_BYTE]
  by_cases hlast : k + 1 = 8
  · rw [if_pos hlast, respond_extracted]
    simp [microExtracted, hlast]
  · rw [if_neg hlast, microExtracted_of_lt r R (by omega)]

theorem microRun_of_le {s : State} {r : RuleTable} {R : Nat → Bool} (h : Running s r R) {k : Nat} (hk : k ≤ 8) :
    microRun k ⟨s, 0, 0, true⟩ = .next (microExtracted r R k s) := by
  induction k with
  | zero =>
    rw [microExtracted_of_lt r R (by decide), h.extracted_zero]
    rfl
  | succ k ih => rw [microRun_succ, ih (by omega), andThen_next, microStep_microExtracted h hk]

theorem microAccept_of_busy {m : MicroState} (h : m.busy = true) (i : Instr) : microAccept i m = .next m := if_pos h

/-- Settles O49: after `k` micro-steps the micro-step form is `microExtracted`, whose engine after eight is the one of
`exec_extraction`. -/
theorem microStepFormRefinesNextByte : Obligations.MicroStepFormRefinesNextByte := by
  intro m r R hb h
  refine ⟨_, ?_, rfl, fun k hk => ?_, _, microRun_of_le h le_rfl, rfl, rfl, exec_extraction (.inr rfl) h⟩
  · simp [microAccept, hb, h.phase]
  · have hrun := microRun_of_le h hk.le
    rw [microExtracted_of_lt r R hk] at hrun
    exact ⟨_, hrun, rfl, rfl, by simp, microAccept_of_busy rfl⟩

/-! ### No read without advance (42_extraction.md R155) -/

theorem data_eq_of_concat_eq {old : List Response} {x y : Response} (h : old ++ [y] = old ++ [x]) : x.data = y.data := by
  rw [List.singleton_injective (List.append_cancel_left h)]

/-- Settles O32: every effect a command can have answers datum 0, but for the two that advance the ring. -/
theorem noReadWithoutAdvance : Obligations.NoReadWithoutAdvance := by
  intro i s t x h hx hdata
  cases exec_cases h with
  | failed | illegal | seedFull | noRule | seedShort | setRule | start =>
    exact absurd (data_eq_of_concat_eq hx) hdata
  | seedByte b u _ _ _ hu =>
    obtain ⟨m, rfl⟩ := writeSeedBits_eq_withRing hu
    exact absurd (data_eq_of_concat_eq hx) hdata
  | nextBit u v hi hp hu =>
    obtain ⟨r, R, _, _, _, rfl, _⟩ := stepAndTap_cases hu
    exact ⟨hp, .inl ⟨hi, rfl⟩⟩
  | nextByte u b hi hp hu =>
    obtain ⟨m, rfl⟩ := gatherBits_eq_withRingGen hu
    exact ⟨hp, .inr ⟨hi, rfl⟩⟩

end Sys2Proof.Machine

/-! PROOFS. The family 43_stream_production.md: reset and command words as a run with its responses (R177, R180), at the
transaction level and at the ports; the pseudo-command `INIT` (R174); the byte stream (R178). -/

namespace Sys2Proof.Machine

/-! ### Command words with the responses given for them (43_stream_production.md R180) -/

/-- The engine in `s` executes the command words of the exchanges in order, answers each with its response, and ends in
the last state. -/
inductive Answers : State → List Exchange → State → Prop where
  | nil (s : State) : Answers s [] s
  | cons {s u t : State} {x : Exchange} {xs : List Exchange} (hexec : exec (decode x.word) s = .next u)
      (hresp : u.responses = s.responses ++ [x.response]) (hrest : Answers u xs t) : Answers s (x :: xs) t

theorem Answers.runWords {s t : State} {xs : List Exchange} (h : Answers s xs t) :
    runWords (xs.map Exchange.word) s = .next t := by
  induction h with
  | nil => rfl
  | cons hexec _ _ ih => rw [List.map_cons, Machine.runWords, hexec, andThen_next, ih]

theorem Answers.responses {s t : State} {xs : List Exchange} (h : Answers s xs t) :
    t.responses = s.responses ++ xs.map Exchange.response := by
  induction h with
  | nil => simp
  | cons _ hresp _ ih => simp [ih, hresp]

theorem Answers.append {s u t : State} {xs ys : List Exchange} (h : Answers s xs u) (h' : Answers u ys t) :
    Answers s (xs ++ ys) t := by
  induction h with
  | nil => exact h'
  | cons hexec hresp _ ih => exact .cons hexec hresp (ih h')

theorem Answers.inv {s t : State} {xs : List Exchange} (h : Answers s xs t) (hs : Inv s) : Inv t := by
  induction h with
  | nil => exact hs
  | cons hexec _ _ ih => exact ih (exec_keeps_inv hs hexec)

theorem Answers.afterResponses {s t : State} {xs : List Exchange} (h : Answers s xs t) (old : List Response) :
    Answers (afterResponses old s) xs (afterResponses old t) := by
  induction h with
  | nil => exact .nil _
  | cons hexec hresp _ ih =>
    refine .cons (by rw [exec_afterResponses, hexec, andThen_next]) ?_ ih
    simp [Machine.afterResponses, hresp]

/-- `FAILED` is sticky (60_exceptions.md R204). -/
theorem Answers.failed {s t : State} {xs : List Exchange} (h : Answers s xs t) (hp : s.phase = .failed) :
    t.phase = .failed := by
  induction h with
  | nil => exact hp
  | cons hexec _ _ ih =>
    rw [exec_of_failed _ hp] at hexec
    cases hexec
    exact ih hp

/-- From a state that has not failed, all responses are `OK` exactly where the engine has not failed at the end: the
first other response comes with fault entry. -/
theorem Answers.ok_iff {s t : State} {xs : List Exchange} (h : Answers s xs t) (hs : Inv s) (hp : s.phase ≠ .failed) :
    (∀ x ∈ xs, x.response.status = .ok) ↔ t.phase ≠ .failed := by
  induction h with
  | nil => simpa using hp
  | @cons s u t x xs hexec hresp hrest ih =>
    obtain ⟨y, hy, _, hok⟩ := oneResponsePerCommand _ _ _ hexec
    obtain rfl : x.response = y := List.singleton_injective (List.append_cancel_left (hresp.symm.trans hy))
    have hok := hok hs.err_ok_iff
    rw [List.forall_mem_cons, hok]
    by_cases hu : u.phase = .failed
    · simp [hu, hrest.failed hu]
    · simp [hu, ih (exec_keeps_inv hs hexec) hu]

/-- From every state that meets the invariants every list of command words is answered. -/
theorem exists_answers (ws : List CmdWord) {s : State} (hs : Inv s) :
    ∃ xs t, xs.map Exchange.word = ws ∧ Answers s xs t := by
  induction ws generalizing s with
  | nil => exact ⟨[], s, rfl, .nil s⟩
  | cons w ws ih =>
    obtain ⟨u, y, hexec, hy, hu⟩ := everyCommandIsAnswered s hs (decode w)
    obtain ⟨xs, t, rfl, h⟩ := ih hu
    exact ⟨⟨w, y⟩ :: xs, t, rfl, .cons hexec hy h⟩

/-! ### A reset and the command words after it (43_stream_production.md R177) -/

/-- What a reset leaves is the reset state of the configuration, but for the host's further acts and the responses given
(log 6). -/
theorem step_reset {s : State} {es : List HostEvent} (h : s.inputs = .reset :: es) :
    step s = .next (withInputs es (afterResponses s.responses (State.resetOf s.cfg))) := by
  rw [step_of_reset h]
  simp [resetEngine, withInputs, afterResponses, State.resetOf]

/-- A reset and command words lead where the words lead from the reset state, the responses before the reset staying in
the record. -/
theorem core_run_reset {s t : State} {xs : List Exchange} (h : Answers (State.resetOf s.cfg) xs t)
    (hin : s.inputs = .reset :: (xs.map Exchange.word).map .command) :
    Host.Core.run core (xs.length + 1) s = .next (afterResponses s.responses t) := by
  have hrun := core_run_commands (xs.map Exchange.word) [] (afterResponses s.responses (State.resetOf s.cfg))
  rw [List.append_nil, List.length_map] at hrun
  refine (core_run_succ _ s).trans ?_
  rw [step_reset hin]
  exact hrun.trans (h.afterResponses s.responses).runWords

/-- Settles O38: both runs are the one from the reset state (`core_run_reset`), after the responses given before. -/
theorem nothingSurvivesReset : Obligations.NothingSurvivesReset := by
  intro ws s s' hcfg hin hin'
  obtain ⟨xs, t, rfl, h⟩ := exists_answers ws (inv_resetOf s.cfg)
  have hresp : t.responses = xs.map Exchange.response := h.responses
  have hrun := core_run_reset h hin
  have hrun' := core_run_reset (hcfg ▸ h) hin'
  rw [List.length_map]
  exact ⟨_, _, t.responses, hrun, hrun', by simp [hresp], rfl, rfl, rfl⟩

theorem runAfterStep_of_reset {r : Run} {s t : State} {es : List HostEvent} (h : s.inputs = .reset :: es) :
    runAfterStep r s t = freshRun := by
  simp only [runAfterStep, h]

/-- The steps over command words record each with its response. -/
theorem Answers.recordSteps {s t : State} {xs : List Exchange} (h : Answers s xs t) (r : Run) :
    recordSteps xs.length (withInputs ((xs.map Exchange.word).map .command) s) r =
      .next (withInputs [] t, { r with exchanges := r.exchanges ++ xs }) := by
  induction h generalizing r with
  | nil => simp [Machine.recordSteps]
  | @cons s u t x xs hexec hresp _ ih =>
    have hrec (es : List HostEvent) : runAfterStep r (withInputs (.command x.word :: es) s) (withInputs es u) =
        { r with exchanges := r.exchanges ++ [x] } := runAfterStep_command rfl hresp
    rw [List.length_cons, List.map_cons, List.map_cons, Machine.recordSteps, step_command, exec_withInputs, hexec,
      andThen_next, andThen_next, hrec, ih, List.append_assoc]
    rfl

theorem goodRun_iff (r : Run) : GoodRun r ↔ ∀ x ∈ r.exchanges, x.response.status = .ok := List.forall_mem_map

theorem observation_of_over {r : Run} (h : runOver r = true) :
    observation r = if GoodRun r then some ((runResponses r).map Response.data) else none := by
  simp only [observation, h, true_and]

/-- A run that is not over has no observation (43_stream_production.md R180). -/
theorem observation_of_not_over {r : Run} (h : runOver r = false) : observation r = none := if_neg (by simp [h])

/-- Settles O53: the run is that of the words from the reset state, recorded alike after any responses given before
(`Answers.recordSteps`). -/
theorem aRunIsAResetAndItsCommandsWithResponses : Obligations.ARunIsAResetAndItsCommandsWithResponses := by
  intro c ws
  obtain ⟨xs, t, rfl, h⟩ := exists_answers ws (inv_resetOf c)
  have hgood : GoodRun ⟨xs, none⟩ ↔ t.phase ≠ .failed :=
    (goodRun_iff _).trans (h.ok_iff (inv_resetOf c) (by simp [State.resetOf]))
  refine ⟨⟨xs, none⟩, rfl, by simp [runCommands], by simp [runResponses], fun s r hc hin => ?_⟩
  subst hc
  have h := h.afterResponses s.responses
  have hresp : (afterResponses s.responses (State.resetOf s.cfg)).responses = s.responses := List.append_nil _
  refine ⟨withInputs [] (afterResponses s.responses t), ?_, h.responses.trans (by rw [hresp]; rfl), hgood, ?_⟩
  · rw [Machine.recordSteps, step_reset hin, andThen_next, runAfterStep_of_reset hin, List.length_map]
    exact h.recordSteps freshRun
  · rw [observation_of_over rfl]
    simp only [hgood, ite_not]
    rfl

/-! ### The run at the ports (43_stream_production.md R180, 30_encoding.md R82) -/

/-- The port and the run of a block whose engine left the reset in `s`: the engine is where the answered commands lead,
and, while a command is outstanding, where that command leads from there, its response being the last of the record
(log 13). -/
inductive PortRunFrom (s : State) : PortState → Run → Prop where
  | idle {t : State} {xs : List Exchange} (h : Answers s xs t) : PortRunFrom s ⟨t, .idle⟩ ⟨xs, none⟩
  | waiting {t u : State} {xs : List Exchange} {w : CmdWord} {x : Response} {left : Nat} (h : Answers s xs t)
      (hexec : exec (decode w) t = .next u) (hresp : u.responses = t.responses ++ [x]) :
      PortRunFrom s ⟨u, .outstanding left⟩ ⟨xs, some w⟩

/-- An edge without reset keeps the relation; an accepted word joins the run's commands. -/
theorem PortRunFrom.edge {s : State} {p : PortState} {r : Run} (h : PortRunFrom s p r) (hs : Inv s)
    (lat : BitVec 3 → Nat) {i : PortIn} (hr : i.rst = false) :
    ∃ q, portTick lat p i = .next q ∧ PortRunFrom s q (runAfterEdge r p i) ∧
      runCommands (runAfterEdge r p i) = runCommands r ++ (acceptedWord p i).toList := by
  cases h with
  | @idle t xs h =>
    rw [runAfterEdge_idle hr rfl, acceptedWord_of_idle hr rfl]
    cases hv : i.cmdValid with
    | false => exact ⟨_, by simp [portTick, hr, hv], .idle h, by simp [runCommands]⟩
    | true =>
      obtain ⟨u, x, hexec, hresp, _⟩ := everyCommandIsAnswered t (h.inv hs) (decode (portWord i))
      exact ⟨⟨u, .outstanding (lat i.cmdOp - 1)⟩, by simp [portTick, hr, hv, hexec], .waiting h hexec hresp,
        by simp [runCommands]⟩
  | @waiting t u xs w x left h hexec hresp =>
    rw [acceptedWord_of_outstanding (by simp)]
    cases left with
    | succ left =>
      rw [runAfterEdge_wait hr rfl (by simp)]
      exact ⟨⟨u, .outstanding left⟩, by simp [portTick, hr], .waiting h hexec hresp, by simp⟩
    | zero =>
      cases ht : i.rspReady with
      | false =>
        rw [runAfterEdge_wait hr rfl fun _ => ht]
        exact ⟨⟨u, .outstanding 0⟩, by simp [portTick, hr, ht], .waiting h hexec hresp, by simp⟩
      | true =>
        rw [runAfterEdge_delivery hr rfl ht rfl hresp]
        have hlast : Answers t [⟨w, x⟩] u := .cons hexec hresp (.nil u)
        exact ⟨⟨u, .idle⟩, by simp [portTick, hr, ht], .idle (h.append hlast), by simp [runCommands]⟩

theorem PortRunFrom.edges {s : State} {p : PortState} {r : Run} (h : PortRunFrom s p r) (hs : Inv s)
    (lat : BitVec 3 → Nat) {is : List PortIn} (hr : ∀ i ∈ is, i.rst = false) :
    ∃ q run, recordEdges lat p r is = .next (q, run) ∧ PortRunFrom s q run ∧
      runCommands run = runCommands r ++ acceptedWords lat p is := by
  induction is generalizing p r with
  | nil => exact ⟨p, r, rfl, h, (List.append_nil _).symm⟩
  | cons i is ih =>
    obtain ⟨hr, hrs⟩ := List.forall_mem_cons.mp hr
    obtain ⟨u, hu, h, hcmds⟩ := h.edge hs lat hr
    obtain ⟨q, run, hrec, h, hrun⟩ := ih h hrs
    refine ⟨q, run, ?_, h, ?_⟩
    · rw [recordEdges, hu, andThen_next, hrec]
    · simp only [acceptedWords, hu, hrun, hcmds, List.append_assoc]

/-- Settles O54: after the reset edge the port is idle with a fresh run, and `PortRunFrom.edges` leads to a state of the
port from which every clause is read off. -/
theorem portRunsAreRuns : Obligations.PortRunsAreRuns := by
  intro lat p r i is hi his
  have hreset : portTick lat p i = .next ⟨resetEngine { p.engine with responses := delivered p }, .idle⟩ := if_pos hi
  have hinv := inv_resetEngine { p.engine with responses := delivered p }
  obtain ⟨q, run, hrec, h, hcmds⟩ := (PortRunFrom.idle (.nil _)).edges hinv lat his
  have hnone : acceptedWord p i = none := by simp [acceptedWord, portOut, hi]
  have hcmds : runCommands run = acceptedWords lat p (i :: is) := by
    rw [hcmds, acceptedWords, hnone, hreset]
    rfl
  have hrec : recordEdges lat p r (i :: is) = .next (q, run) := by
    rw [recordEdges, hreset, andThen_next, runAfterEdge_reset hi]
    exact hrec
  cases h with
  | @idle t xs h => exact ⟨_, _, t, hrec, hcmds, h.responses, by simp [runOver], h.runWords, rfl⟩
  | @waiting t u xs w x left h hexec hresp =>
    refine ⟨_, _, t, hrec, hcmds, ?_, by simp [runOver], h.runWords, hexec, observation_of_not_over rfl⟩
    rw [delivered, hresp, List.dropLast_concat]
    exact h.responses

/-! ### The pseudo-command `INIT` (43_stream_production.md R174) -/

theorem Answers.inputs {s t : State} {xs : List Exchange} (h : Answers s xs t) : t.inputs = s.inputs := by
  induction h with
  | nil => rfl
  | cons hexec _ _ ih =>
    obtain ⟨_, _, _, _, _, _, _, hin⟩ := eachElementHasItsWriters _ _ _ hexec
    exact ih.trans hin

/-- A failed engine answers every further command with the recorded error (60_exceptions.md R204). -/
theorem runInstrs_of_failed (is : List Instr) {s : State} (hp : s.phase = .failed) :
    runInstrs is s = .next { s with responses := s.responses ++ List.replicate is.length ⟨s.err, 0⟩ } := by
  induction is generalizing s with
  | nil => simp [runInstrs]
  | cons i is ih =>
    rw [runInstrs, exec_of_failed i hp, andThen_next, ih (s := respond s.err 0 s) hp]
    simp [respond, List.replicate_succ]

/-- The commands `INIT` gives before its `START`. -/
def loadCommands (r : RuleTable) (seed : List Byte) : List Instr := .setRule r :: seed.map .seedByte

theorem rulesIn_loadCommands (r : RuleTable) (seed : List Byte) : rulesIn (loadCommands r seed) = [r] := by
  simp [rulesIn, loadCommands, List.filterMap_map]

theorem seedBytesIn_loadCommands (r : RuleTable) (seed : List Byte) : seedBytesIn (loadCommands r seed) = seed :=
  seedBytesIn_map_seedByte seed

theorem length_loadCommands (r : RuleTable) (seed : List Byte) : (loadCommands r seed).length = seed.length + 1 := by
  simp [loadCommands]

theorem mem_loadCommands (r : RuleTable) (seed : List Byte) :
    ∀ i ∈ loadCommands r seed, (∃ r, i = .setRule r) ∨ ∃ b, i = .seedByte b := by
  simp [loadCommands]

/-- The commands `INIT` expands to after its reset (43_stream_production.md R174). -/
def initCommands (r : RuleTable) (seed : List Byte) : List Instr := loadCommands r seed ++ [.start]

/-- A rule and at most `N/8` seed bytes are loaded, every command answered `(OK, 0)`. -/
theorem runInstrs_loadCommands (c : Config) (r : RuleTable) {seed : List Byte} (hlen : seed.length ≤ c.seedBytes) :
    ∃ s, runInstrs (loadCommands r seed) (State.resetOf c) = .next s ∧ s.cfg = c ∧ s.phase = .cfg ∧
      s.ruleValid = true ∧ s.seedCnt = seed.length ∧ s.responses = List.replicate (seed.length + 1) ⟨.ok, 0⟩ := by
  have hseed := seedBytesIn_loadCommands r seed
  obtain ⟨m, hrun, _⟩ := runInstrs_constructing c (mem_loadCommands r seed) (by rwa [hseed])
  exact ⟨_, hrun, rfl, rfl, by simp [constructing, rulesIn_loadCommands], congrArg List.length hseed,
    by simp [constructing, length_loadCommands]⟩

/-- With fewer than `N/8` bytes `START` finds the seed too short. -/
theorem runInstrs_initCommands_of_lt (c : Config) (r : RuleTable) {seed : List Byte}
    (hlen : seed.length < c.seedBytes) :
    ∃ t, runInstrs (initCommands r seed) (State.resetOf c) = .next t ∧
      t.responses = List.replicate (seed.length + 1) ⟨.ok, 0⟩ ++ [⟨.error .seedTooShort, 0⟩] := by
  obtain ⟨s, hrun, rfl, hp, hv, hcnt, hresp⟩ := runInstrs_loadCommands c r hlen.le
  refine ⟨raise .seedTooShort s, ?_, by rw [raise_responses, hresp]⟩
  rw [initCommands, runInstrs_append, hrun, andThen_next, runInstrs, exec_start_of_short hp hv (by rwa [hcnt]),
    andThen_next, runInstrs]

/-- With more than `N/8` bytes the one too many raises `ProtocolViolation`, which the failed engine answers from then
on. -/
theorem runInstrs_initCommands_of_gt (c : Config) (r : RuleTable) {seed : List Byte}
    (hlen : c.seedBytes < seed.length) :
    ∃ t, runInstrs (initCommands r seed) (State.resetOf c) = .next t ∧
      t.responses = List.replicate (c.seedBytes + 1) ⟨.ok, 0⟩ ++
        List.replicate (seed.length - c.seedBytes + 1) ⟨.error .protocolViolation, 0⟩ := by
  obtain ⟨front, b, back, rfl, hfront⟩ : ∃ front b back, seed = front ++ b :: back ∧ front.length = c.seedBytes :=
    ⟨seed.take c.seedBytes, seed[c.seedBytes], seed.drop (c.seedBytes + 1), by simp, by simp [hlen.le]⟩
  obtain ⟨s, hrun, rfl, hp, _, hcnt, hresp⟩ := runInstrs_loadCommands c r hfront.le
  have hsplit : initCommands r (front ++ b :: back) =
      loadCommands r front ++ .seedByte b :: (back.map .seedByte ++ [.start]) := by simp [initCommands, loadCommands]
  have hfault : runInstrs (initCommands r (front ++ b :: back)) (State.resetOf s.cfg) =
      runInstrs (back.map .seedByte ++ [.start]) (raise .protocolViolation s) := by
    rw [hsplit, runInstrs_append, hrun, andThen_next, runInstrs, exec_seedByte_of_full hp (hcnt.trans hfront),
      andThen_next]
  refine ⟨_, hfault.trans (runInstrs_of_failed _ rfl), ?_⟩
  simp [hresp, hfront, List.replicate_succ]

/-- With `N/8` bytes the engine is constructed (40_construction.md R115). -/
theorem runInstrs_initCommands_of_eq (c : Config) (r : RuleTable) {seed : List Byte}
    (hlen : seed.length = c.seedBytes) :
    ∃ t, runInstrs (initCommands r seed) (State.resetOf c) = .next t ∧ t.phase = .run ∧ t.err = .ok ∧
      t.rule = some r ∧ t.ruleValid = true ∧ t.seedCnt = c.seedBytes ∧
      (∀ i < c.seedBytes, ∀ b < 8, t.ring.read (8 * i + b) = some ((seed.getD i 0).getLsbD b)) ∧
      t.responses = List.replicate (seed.length + 2) ⟨.ok, 0⟩ := by
  have hrule : (rulesIn (loadCommands r seed)).getLast? = some r := by rw [rulesIn_loadCommands]; rfl
  have h := constructionAsAWhole c r seed _ (mem_loadCommands r seed) (seedBytesIn_loadCommands r seed) hlen hrule
  rwa [length_loadCommands] at h

/-- The seed bytes of an `INIT` line. -/
def lineSeed (bs : List Nat) : List Byte := bs.map (BitVec.ofNat 8)

@[simp] theorem length_lineSeed (bs : List Nat) : (lineSeed bs).length = bs.length := List.length_map _

theorem getLsbD_lineSeed (bs : List Nat) (i : Nat) {b : Nat} (hb : b < 8) :
    ((lineSeed bs).getD i 0).getLsbD b = (bs.getD i 0).testBit b := by
  have hbyte : (lineSeed bs).getD i 0 = BitVec.ofNat 8 (bs.getD i 0) := List.getD_map bs 0 (BitVec.ofNat 8)
  rw [hbyte, BitVec.getLsbD_ofNat, decide_eq_true hb, Bool.true_and]

/-- `INIT` stands for a reset and its commands. -/
theorem expand_init (r : Nat) (bs : List Nat) : (Line.init r bs).expand =
    .reset :: ((initCommands (BitVec.ofNat 32 r) (lineSeed bs)).map encode).map .command := by
  simp [Line.expand, initCommands, loadCommands, lineSeed, setRuleEvent, seedByteEvent]

/-- The words of an `INIT` line in range. -/
theorem expand_init_of_wellFormed {r : Nat} {bs : List Nat} (h : (Line.init r bs).wellFormed = true) :
    (Line.init r bs).expand = [.reset, .command (cmdWord 1 (BitVec.ofNat 32 r))] ++
      bs.map (fun b => .command (cmdWord 2 (BitVec.ofNat 32 b))) ++ [.command (cmdWord 3 0)] := by
  obtain ⟨_, hrange⟩ : r < 2 ^ 32 ∧ ∀ b ∈ bs, b < 256 := by simpa [Line.wellFormed] using h
  have hbytes : bs.map seedByteEvent = bs.map fun b => .command (cmdWord 2 (BitVec.ofNat 32 b)) := by
    refine List.map_congr_left fun b hb => ?_
    have hwide : (BitVec.ofNat 8 b).setWidth 32 = BitVec.ofNat 32 b :=
      BitVec.setWidth_ofNat_of_le_of_lt (by decide) (hrange b hb)
    exact congrArg (fun d => HostEvent.command (cmdWord 2 d)) hwide
  simp only [Line.expand, hbytes]
  rfl

/-- Settles O45: the run is that of `initCommands` from the reset state, one lemma for each comparison with `N/8`. -/
theorem initConstructsOrFails : Obligations.InitConstructsOrFails := by
  intro s r bs hwf
  refine ⟨expand_init_of_wellFormed hwf, fun hin => ?_⟩
  obtain ⟨xs, t, hws, h⟩ := exists_answers ((initCommands (BitVec.ofNat 32 r) (lineSeed bs)).map encode)
    (inv_resetOf s.cfg)
  rw [expand_init, ← hws] at hin
  rw [← length_lineSeed bs]
  have hcount : xs.length = (lineSeed bs).length + 2 := by
    simpa [initCommands, length_loadCommands] using congrArg List.length hws
  have hdecode : decode ∘ encode = id := funext decode_encode
  have hrun := h.runWords
  rw [hws, runWords_eq_runInstrs, List.map_map, hdecode, List.map_id] at hrun
  have hcore := core_run_reset h hin
  rw [hcount] at hcore
  refine ⟨_, hcore, h.inputs, fun hlen => ?_, fun hlen => ?_, fun hlen => ?_⟩
  · obtain ⟨u, hu, hp, herr, hrule, hv, hcnt, hcells, hresp⟩ := runInstrs_initCommands_of_eq s.cfg _ hlen
    cases hrun.symm.trans hu
    refine ⟨hp, herr, hrule, hv, hcnt, fun i hi b hb => ?_, congrArg (s.responses ++ ·) hresp⟩
    rw [← getLsbD_lineSeed bs i hb]
    exact hcells i hi b hb
  · obtain ⟨u, hu, hresp⟩ := runInstrs_initCommands_of_lt s.cfg _ hlen
    cases hrun.symm.trans hu
    rw [List.append_assoc]
    exact congrArg (s.responses ++ ·) hresp
  · obtain ⟨u, hu, hresp⟩ := runInstrs_initCommands_of_gt s.cfg _ hlen
    cases hrun.symm.trans hu
    rw [List.append_assoc]
    exact congrArg (s.responses ++ ·) hresp

/-! ### The byte stream (43_stream_production.md R178) -/

theorem bitsAskedBy_replicate_nextByte (k : Nat) : bitsAskedBy (List.replicate k .nextByte) = 8 * k := by
  simp [bitsAskedBy, bitsAsked, Nat.mul_comm]

/-- The byte of the first eight stream bits. -/
theorem streamDatum_eight_eq_ofNat (c : Config) (r : RuleTable) (R : Nat → Bool) : streamDatum c r R 8 =
    BitVec.ofNat 8 ((List.range 8).map fun j => (streamBit c r R (j + 1)).toNat <<< j).sum := by
  simp only [Nat.shiftLeft_eq, Nat.mul_comm _ (2 ^ _), ← toNat_streamDatum, BitVec.ofNat_toNat, BitVec.setWidth_eq]

/-- `k` `NEXT_BYTE`s answer the bytes of the stream in order, byte `m` from the bits after `b(8m)`. -/
theorem extractionData_replicate_nextByte (c : Config) (r : RuleTable) (k : Nat) (R : Nat → Bool) :
    extractionData c r (List.replicate k .nextByte) R =
      (List.range k).map fun m => streamDatum c r (generation c r R (8 * m)) 8 := by
  induction k generalizing R with
  | zero => rfl
  | succ k ih =>
    rw [List.replicate_succ, extractionData, ih, List.range_succ_eq_map, List.map_cons, List.map_map]
    refine congrArg₂ List.cons rfl (List.map_congr_left fun m _ => ?_)
    rw [generation_generation, Nat.add_comm (bitsAsked _)]
    rfl

/-- Settles O47: `runInstrs_extraction` for `k` `NEXT_BYTE`s, whose data are the bytes of the formula. -/
theorem byteStreamFormula : Obligations.ByteStreamFormula := by
  intro s r G0 k h
  have hrun := runInstrs_extraction (is := .replicate k .nextByte) (fun i hi => .inr (List.eq_of_mem_replicate hi)) h
  rw [bitsAskedBy_replicate_nextByte, extractionData_replicate_nextByte] at hrun
  refine ⟨_, hrun, ?_, h.extracted _ _⟩
  simp only [extracted_responses, List.map_map, Function.comp_def, streamDatum_eight_eq_ofNat, streamBit_generation,
    Nat.add_assoc]

end Sys2Proof.Machine

/-! PROOFS. The family 60_exceptions.md: the priority of errors (R201), fault entry (R202), `FAILED` (R204) and the idle
engine (R214). -/

namespace Sys2Proof.Machine

/-! ### The first error that applies (60_exceptions.md R201) -/

/-- Settles O25: under the invariants the command is answered (`exec_answers`), and the status of each effect it can have is
the branch of the chain that the effect's own conditions select. -/
theorem firstErrorThatAppliesIsReported : Obligations.FirstErrorThatAppliesIsReported := by
  intro w s hs
  obtain ⟨t, ht⟩ := exec_answers hs (decode w)
  cases exec_cases ht with
  | failed hf => exact ⟨_, _, ht, rfl, (if_pos hf).symm⟩
  | illegal hf hl =>
    refine ⟨_, _, ht, rfl, ?_⟩
    obtain hres | hphase := (legalPhase_decode_ne_iff w s.phase).mp hl
    · rw [if_neg hf, if_pos hres]
    · rw [if_neg hf, if_pos hphase, ite_self]
  | seedFull b hi hp hc =>
    have hfull : s.seedCnt = s.cfg.N / 8 := hc
    exact ⟨_, _, ht, rfl, by simp [← opcode_decode, hi, opcode, hp, hfull]⟩
  | noRule hi hp hv => exact ⟨_, _, ht, rfl, by simp [← opcode_decode, hi, opcode, hp, hv]⟩
  | seedShort hi hp hv hc =>
    have hshort : s.seedCnt < s.cfg.N / 8 := hc
    exact ⟨_, _, ht, rfl, by simp [← opcode_decode, hi, opcode, hp, hv, hshort]⟩
  | setRule r hi hp => exact ⟨_, _, ht, rfl, by simp [← opcode_decode, hi, opcode, hp]⟩
  | seedByte b u hi hp hc hu =>
    have hnotFull : s.seedCnt ≠ s.cfg.N / 8 := hc
    obtain ⟨m, rfl⟩ := writeSeedBits_eq_withRing hu
    exact ⟨_, _, ht, rfl, by simp [← opcode_decode, hi, opcode, hp, hnotFull]⟩
  | start hi hp hv hc =>
    have hnotShort : ¬s.seedCnt < s.cfg.N / 8 := Nat.not_lt.mpr hc
    exact ⟨_, _, ht, rfl, by simp [← opcode_decode, hi, opcode, hp, hv, hnotShort]⟩
  | nextBit u v hi hp hu =>
    obtain ⟨r, R, _, _, _, rfl, _⟩ := stepAndTap_cases hu
    exact ⟨_, _, ht, rfl, by simp [← opcode_decode, hi, opcode, hp]⟩
  | nextByte u b hi hp hu =>
    obtain ⟨m, rfl⟩ := gatherBits_eq_withRingGen hu
    exact ⟨_, _, ht, rfl, by simp [← opcode_decode, hi, opcode, hp]⟩

/-! ### Fault entry and `FAILED` (60_exceptions.md R202, R204) -/

/-- Settles O26: the effects that are errors are fault entry, and every other leads to `CFG` or `RUN`. -/
theorem faultEntryWritesErrAndPhaseOnly : Obligations.FaultEntryWritesErrAndPhaseOnly := by
  intro i s t h hp hfailed
  cases exec_cases h with
  | failed hf => exact absurd hf hp
  | illegal | seedFull | noRule => exact ⟨.protocolViolation, rfl, nofun⟩
  | seedShort hi => exact ⟨.seedTooShort, rfl, fun _ => hi⟩
  | setRule => exact absurd hfailed hp
  | seedByte b u _ _ _ hu =>
    obtain ⟨m, rfl⟩ := writeSeedBits_eq_withRing hu
    exact absurd hfailed hp
  | start => cases hfailed
  | nextBit u v _ _ hu =>
    obtain ⟨r, R, _, _, _, rfl, _⟩ := stepAndTap_cases hu
    exact absurd hfailed hp
  | nextByte u b _ _ hu =>
    obtain ⟨m, rfl⟩ := gatherBits_eq_withRingGen hu
    exact absurd hfailed hp

/-- Settles O27: the words are the commands they decode to, each answered by a failed engine (`runInstrs_of_failed`). -/
theorem failedEngineRepeatsTheRecordedError : Obligations.FailedEngineRepeatsTheRecordedError := by
  intro ws s hp
  rw [runWords_eq_runInstrs, runInstrs_of_failed _ hp, List.length_map]

/-! ### The idle engine (60_exceptions.md R214) -/

/-- Settles O34. -/
theorem idleEngineHoldsItsState : Obligations.IdleEngineHoldsItsState := by
  intro s hin
  simp only [step, takeEvent, hin]

end Sys2Proof.Machine

/-! PROOFS. The family 70_reset_and_hazards.md: what reset gives every element (R230), a command cut off by reset (R232),
no way back to `CFG` but reset (R247), and the response to an accepted command at the ports (R243). -/

namespace Sys2Proof.Machine

/-! ### Reset (70_reset_and_hazards.md R230, R232, R247) -/

/-- Settles O35. -/
theorem resetGivesTheResetValues : Obligations.ResetGivesTheResetValues := by
  intro s es hin
  exact ⟨_, step_of_reset hin, rfl, rfl, rfl, rfl, rfl, fun _ => rfl⟩

theorem step_of_cutOff {s : State} {w : CmdWord} {es : List HostEvent} (h : s.inputs = .cutOff w :: es) :
    step s = .next (resetEngine (withInputs es s)) := by
  simp only [step, takeEvent, h, withInputs]

theorem portTick_of_rst (lat : BitVec 3 → Nat) (p : PortState) {i : PortIn} (h : i.rst = true) :
    portTick lat p i = .next ⟨resetEngine { p.engine with responses := delivered p }, .idle⟩ := if_pos h

theorem delivered_of_outstanding {p : PortState} {left : Nat} (h : p.job = .outstanding left) :
    delivered p = p.engine.responses.dropLast := by
  simp only [delivered, h]

/-- Settles O36: both are a reset, the one at the ports after the undelivered response is dropped. -/
theorem resetDuringACommandLeavesNoResponse : Obligations.ResetDuringACommandLeavesNoResponse := by
  refine ⟨fun s w es hin => step_of_cutOff hin, fun lat p i left hr hj => ?_⟩
  rw [portTick_of_rst lat p hr, delivered_of_outstanding hj]
  rfl

/-- Outside `CFG` no command leads to `CFG` or writes what construction wrote. -/
theorem exec_keeps_construction {i : Instr} {s t : State} (hp : s.phase ≠ .cfg) (h : exec i s = .next t) :
    t.phase ≠ .cfg ∧ t.rule = s.rule ∧ t.ruleValid = s.ruleValid ∧ t.seedCnt = s.seedCnt := by
  obtain ⟨_, hrule, hseedCnt, hphase, _⟩ := eachElementHasItsWriters i s t h
  refine ⟨fun hcfg => ?_, exec_rule_of_ne_cfg h hp, ?_, ?_⟩
  · obtain ⟨_, hs, _⟩ | hfailed := hphase (hcfg ▸ hp.symm)
    · exact hp hs
    · simp [hcfg] at hfailed
  · exact not_imp_comm.mp (fun hne => (hrule (.inr hne)).1) hp
  · exact not_imp_comm.mp (fun hne => (hseedCnt hne).1) hp

/-- Settles O29: the commands by `exec_keeps_construction`, one after another; the reset by `step_of_reset`. -/
theorem noCommandReturnsToConstruction : Obligations.NoCommandReturnsToConstruction := by
  refine ⟨fun ws => ?_, fun s es hin => step_of_reset hin⟩
  induction ws with
  | nil =>
    intro s t hp h
    cases h
    exact ⟨hp, rfl, rfl, rfl⟩
  | cons w ws ih =>
    intro s t hp h
    obtain ⟨u, hu, h⟩ := andThen_eq_next h
    obtain ⟨hpu, hrule, hruleValid, hseedCnt⟩ := exec_keeps_construction hp hu
    rw [← hrule, ← hruleValid, ← hseedCnt]
    exact ih u t hpu h

/-! ### The response to an accepted command (70_reset_and_hazards.md R243, 30_encoding.md R82) -/

/-- While no command is outstanding the command presented is executed, and its response comes after its latency. -/
theorem portTick_accepts {lat : BitVec 3 → Nat} {p : PortState} {i : PortIn} {t : State} (hj : p.job = .idle)
    (hr : i.rst = false) (hv : i.cmdValid = true) (h : exec (decode (portWord i)) p.engine = .next t) :
    portTick lat p i = .next ⟨t, .outstanding (lat i.cmdOp - 1)⟩ := by
  simp [portTick, hj, hr, hv, h]

/-- The edge where the host takes the response presented. -/
theorem portTick_delivers (lat : BitVec 3 → Nat) (s : State) {i : PortIn} (hr : i.rst = false)
    (ht : i.rspReady = true) : portTick lat ⟨s, .outstanding 0⟩ i = .next ⟨s, .idle⟩ := by
  simp [portTick, hr, ht]

/-- As many edges as are left before the response bring it, whatever the host does but reset. -/
theorem portRun_counts_down (lat : BitVec 3 → Nat) (s : State) {is : List PortIn} (hr : ∀ i ∈ is, i.rst = false) :
    portRun lat ⟨s, .outstanding is.length⟩ is = .next ⟨s, .outstanding 0⟩ := by
  induction is with
  | nil => rfl
  | cons i is ih =>
    obtain ⟨hr, hrs⟩ := List.forall_mem_cons.mp hr
    have htick : portTick lat ⟨s, .outstanding (is.length + 1)⟩ i = .next ⟨s, .outstanding is.length⟩ := by
      simp [portTick, hr]
    rw [List.length_cons, portRun, htick, andThen_next, ih hrs]

/-- Settles O51: the command is answered because the invariants hold (`everyCommandIsAnswered`); its response is the
last of the record while the latency runs down (`portRun_counts_down`). -/
theorem portAnswersAnAcceptedCommand : Obligations.PortAnswersAnAcceptedCommand := by
  intro lat p i is hinv hj hr hv hlen his
  obtain ⟨t, x, ht, hx, _⟩ := everyCommandIsAnswered p.engine hinv (decode (portWord i))
  refine ⟨⟨t, .outstanding 0⟩, x, ?_, hx, by simp [portOut, hx], fun j hjr hjt => ?_⟩
  · rw [portRun, portTick_accepts hj hr hv ht, andThen_next, ← hlen]
    exact portRun_counts_down lat t his
  · exact ⟨_, portTick_delivers lat t hjr hjt, rfl, hx⟩

end Sys2Proof.Machine
